-- ==== Sys2Proof/Word.lean ====
section
/-! DEFINITION. The word types of the machine: the byte of rule R6 (00_scope.md) and the 9-bit program
counter of rule R26 (10_state.md). -/

namespace Sys2Proof

/-- A memory cell, a register value, an opcode or an operand: 8 bits, always read as unsigned (R6, R21, R50). -/
abbrev Byte := BitVec 8

/-- The program counter's word: 9 bits, of which 0 to 256 are reachable (R26). -/
abbrev PcWord := BitVec 9

/-- A valid register index: one of the eight general registers (R21). -/
abbrev RegIdx := Fin 8

end Sys2Proof
end

