-- ==== Sys2Proof/Config.lean ====
section
/-! DEFINITION. What rule R5 (00_scope.md) fixes of the hardware, and the types of its named parameters.
The parameters' DEFAULT VALUES stand where a repair may mend them: `defaultOpc` (parameter OPC) in
Sys2Proof/Decode.lean, `spInit` (SP_INIT) and `flagsUnsetRead` (FLAGS_UNSET_READ) in
Sys2Proof/Machine/Params.lean. The fixed sizes are literals in the model: MEM_SIZE 256, NREG 8, and SP_IDX 7
(R23: the last of the eight; DEDUCED, spec D3, log entry 5). -/

namespace Sys2Proof

/-- The thirteen mnemonics of the source's handler table, in its order (R83). -/
inductive Mnemonic where
  | prn | ldi | mul | add | push | pop | call | ret | cmp | jmp | jeq | jne | hlt
  deriving DecidableEq, Repr

/-- All thirteen mnemonics, in the table's order (R83). -/
def Mnemonic.all : List Mnemonic :=
  [.prn, .ldi, .mul, .add, .push, .pop, .call, .ret, .cmp, .jmp, .jeq, .jne, .hlt]

/-- The type of the parameter OPC (R5, R84): a byte for each mnemonic. -/
abbrev OpcodeMap := Mnemonic → Byte

/-- R84: an opcode map gives the thirteen mnemonics pairwise distinct bytes. -/
def OpcodeMap.Lawful (opc : OpcodeMap) : Prop := ∀ m n : Mnemonic, opc m = opc n → m = n

/-- The values of the parameter FLAGS_UNSET_READ (R5, R183): what JEQ and JNE do before any CMP. -/
inductive FlagsUnsetRead where
  | literal
  | fault
  deriving DecidableEq, Repr

end Sys2Proof
end

