-- ==== Sys2Proof/Syntax.lean ====
section
/-! DEFINITION. The instructions: one constructor per row of spec/opcode_table.json, with the operand bytes
of its format (30_encoding.md, rule R81) in the order they stand in memory (R56). -/

namespace Sys2Proof

/-- One instruction with its operand bytes WHOLE. A register operand is the byte as fetched, 0 to 255 (R82):
a byte of 8 or more is still an instruction, whose execution raises OutOfBounds(REGIDX) (R25, R87). -/
inductive Instr where
  /-- PRN reg (R130) -/
  | prn (reg : Byte)
  /-- LDI reg, imm (R131) -/
  | ldi (reg imm : Byte)
  /-- MUL regA, regB (R140) -/
  | mul (regA regB : Byte)
  /-- ADD regA, regB (R141) -/
  | add (regA regB : Byte)
  /-- PUSH reg (R150) -/
  | push (reg : Byte)
  /-- POP reg (R151) -/
  | pop (reg : Byte)
  /-- CALL reg (R160) -/
  | call (reg : Byte)
  /-- RET (R161) -/
  | ret
  /-- CMP regA, regB (R170) -/
  | cmp (regA regB : Byte)
  /-- JMP reg (R180) -/
  | jmp (reg : Byte)
  /-- JEQ reg (R181) -/
  | jeq (reg : Byte)
  /-- JNE reg (R182) -/
  | jne (reg : Byte)
  /-- HLT (R112) -/
  | hlt
  deriving DecidableEq, Repr

end Sys2Proof
end

