-- ==== Sys2Proof/WellFormed.lean ====
section
/-! DEFINITION. Well-formed instructions: every register operand byte names one of the eight registers
(10_state.md, rule R25; 30_encoding.md, rules R81, R82). An immediate byte is always well formed. -/

namespace Sys2Proof

/-- The register operand bytes of an instruction, in operand order (R81). -/
def Instr.registerOperands : Instr → List Byte
  | .prn r => [r]
  | .ldi r _ => [r]
  | .mul a b => [a, b]
  | .add a b => [a, b]
  | .push r => [r]
  | .pop r => [r]
  | .call r => [r]
  | .ret => []
  | .cmp a b => [a, b]
  | .jmp r => [r]
  | .jeq r => [r]
  | .jne r => [r]
  | .hlt => []

/-- R25: a register operand is used whole and must be below 8. -/
def registerByteOk (b : Byte) : Bool := decide (b.toNat < 8)

/-- An instruction is well formed when all its register operands are. -/
def Instr.wellFormed (i : Instr) : Bool := i.registerOperands.all registerByteOk

end Sys2Proof
end

