-- ==== Sys2Proof/Decode.lean ====
section
/-! DEFINITION. The decoder and the encoder (30_encoding.md). Both take the opcode map OPC as an argument
(R84); `decode` and `encode` are their instances at the default map of rule R83. -/

namespace Sys2Proof

/-- The default of the parameter OPC (R83). PRESUMED (spec G1: general knowledge of the LS-8 teaching machine,
not in the source), log entry 2: unsafe if the hardware uses other numbers. -/
def defaultOpc : OpcodeMap
  | .prn  => 0b01000111#8
  | .ldi  => 0b10000010#8
  | .mul  => 0b10100010#8
  | .add  => 0b10100000#8
  | .push => 0b01000101#8
  | .pop  => 0b01000110#8
  | .call => 0b01010000#8
  | .ret  => 0b00010001#8
  | .cmp  => 0b10100111#8
  | .jmp  => 0b01010100#8
  | .jeq  => 0b01010101#8
  | .jne  => 0b01010110#8
  | .hlt  => 0b00000001#8

/-- How many operand bytes follow the opcode (R80, R81): fixed by the mnemonic, whatever its opcode value. -/
def Mnemonic.operandCount : Mnemonic → Nat
  | .ret | .hlt => 0
  | .prn | .push | .pop | .call | .jmp | .jeq | .jne => 1
  | .ldi | .mul | .add | .cmp => 2

/-- The longest instruction is three bytes (R80). -/
def maxLength : Nat := 3

/-- R85, `decode(b)`: the mnemonic whose opcode value is the whole byte `b`, if there is one. -/
def decodeOpcode (opc : OpcodeMap) (b : Byte) : Option Mnemonic :=
  Mnemonic.all.find? fun m => opc m == b

/-- What the decoder answers. -/
inductive Decoded where
  /-- an instruction, and the bytes after it -/
  | ok (i : Instr) (rest : List Byte)
  /-- there is no opcode byte -/
  | noBytes
  /-- the opcode byte is not one of the thirteen (R87) -/
  | unrecognized (b : Byte)
  /-- the opcode `m` is recognised and its operand byte number `k` (1 or 2) is the first that is missing -/
  | missingOperand (m : Mnemonic) (k : Nat)
  deriving DecidableEq, Repr

/-- Format N (R81): no operand byte. -/
def takeNone (i : Instr) (bs : List Byte) : Decoded := .ok i bs

/-- Format R (R81): one register operand byte. -/
def takeOne (m : Mnemonic) (f : Byte → Instr) : List Byte → Decoded
  | [] => .missingOperand m 1
  | r :: rest => .ok (f r) rest

/-- Formats RR and RI (R81): two operand bytes, the first listed at the lower address (R56). -/
def takeTwo (m : Mnemonic) (f : Byte → Byte → Instr) : List Byte → Decoded
  | [] => .missingOperand m 1
  | [_] => .missingOperand m 2
  | a :: b :: rest => .ok (f a b) rest

/-- The operand bytes of a recognised opcode, taken from the bytes after it (R81). -/
def decodeOperands : Mnemonic → List Byte → Decoded
  | .prn  => takeOne .prn .prn
  | .ldi  => takeTwo .ldi .ldi
  | .mul  => takeTwo .mul .mul
  | .add  => takeTwo .add .add
  | .push => takeOne .push .push
  | .pop  => takeOne .pop .pop
  | .call => takeOne .call .call
  | .ret  => takeNone .ret
  | .cmp  => takeTwo .cmp .cmp
  | .jmp  => takeOne .jmp .jmp
  | .jeq  => takeOne .jeq .jeq
  | .jne  => takeOne .jne .jne
  | .hlt  => takeNone .hlt

/-- The decoder under an opcode map (R84, R85, R88): total on any bytes. -/
def decodeWith (opc : OpcodeMap) : List Byte → Decoded
  | [] => .noBytes
  | b :: rest =>
    match decodeOpcode opc b with
    | none => .unrecognized b
    | some m => decodeOperands m rest

/-- The decoder at the default opcode map (R83). -/
def decode (bs : List Byte) : Decoded := decodeWith defaultOpc bs

/-- The mnemonic of an instruction. -/
def Instr.mnemonic : Instr → Mnemonic
  | .prn _ => .prn
  | .ldi _ _ => .ldi
  | .mul _ _ => .mul
  | .add _ _ => .add
  | .push _ => .push
  | .pop _ => .pop
  | .call _ => .call
  | .ret => .ret
  | .cmp _ _ => .cmp
  | .jmp _ => .jmp
  | .jeq _ => .jeq
  | .jne _ => .jne
  | .hlt => .hlt

/-- The operand bytes of an instruction in ascending address order (R56, R81). -/
def Instr.operandBytes : Instr → List Byte
  | .prn r => [r]
  | .ldi r imm => [r, imm]
  | .mul a b => [a, b]
  | .add a b => [a, b]
  | .push r => [r]
  | .pop r => [r]
  | .call r => [r]
  | .ret => []
  | .cmp a b => [a, b]
  | .jmp r => [r]
  | .jeq r => [r]
  | .jne r => [r]
  | .hlt => []

/-- The encoder under an opcode map (R81, R84): the opcode byte, then the operand bytes. -/
def encodeWith (opc : OpcodeMap) (i : Instr) : List Byte := opc i.mnemonic :: i.operandBytes

/-- The encoder at the default opcode map (R83). -/
def encode (i : Instr) : List Byte := encodeWith defaultOpc i

/-- An instruction of `nbits` bits held in the number `w` (bit 0 the least significant bit of the first byte),
laid out as three bytes in ascending address order (R56); every bit above `nbits` is 0. -/
def wordBytes (nbits w : Nat) : List Byte :=
  let v := w % 2 ^ nbits
  [BitVec.ofNat 8 v, BitVec.ofNat 8 (v / 256), BitVec.ofNat 8 (v / 65536)]

/-- The instruction the decoder reads from a word numbered as spec/opcode_table.json numbers it. -/
def decodeTableWord (nbits w : Nat) : Option Instr :=
  match decode (wordBytes nbits w) with
  | .ok i _ => some i
  | .noBytes => none
  | .unrecognized _ => none
  | .missingOperand _ _ => none

end Sys2Proof
end

