-- ==== Sys2Proof/Machine/Params.lean ====
section
/-! DEFINITION. The default values of the named parameters SP_INIT and FLAGS_UNSET_READ of rule R5
(00_scope.md); the default of OPC is `Sys2Proof.defaultOpc` in Sys2Proof/Decode.lean. -/

namespace Sys2Proof.Machine

/-- The default of SP_INIT (R5): the value of `x[7]` after reset. PRESUMED (spec G2: the LS-8 value, not in the
source), log entry 3: unsafe; no statement rests on it, they hold for every value (`State.resetWith`). -/
def spInit : Byte := 0xF4#8

/-- The default of FLAGS_UNSET_READ (R5, R183). DESIGN CHOICE (spec D5), log entry 4: unsafe. -/
def flagsUnsetRead : FlagsUnsetRead := .literal

end Sys2Proof.Machine
end

