-- ==== Sys2Proof/Machine/State.lean ====
section
/-! DEFINITION. The whole state of the machine (10_state.md, rule R20), its reset (R37), and the ways a step
of the model can end without a next state. -/

namespace Sys2Proof.Machine

/-- Memory (R50) as plain data: pairs of an address and a byte, addresses strictly rising, none beyond 255, and
no entry equal to 0, which is what an unlisted address reads as (R37). The canonical form is `Memory.wf`. -/
abbrev Memory := List Host.Cell

/-- The flags value `fl` (R29). `none` is the spec's NONE, its value from reset to the first CMP. -/
inductive Flags where
  | none
  | eq
  | gt
  | lt
  deriving DecidableEq, Repr

/-- The run state `run` (R32). -/
inductive RunState where
  | running
  | halted
  deriving DecidableEq, Repr

/-- The exit cause (R32, R200); `noneYet` while running. -/
inductive Cause where
  | noneYet
  | hlt
  | unrecognizedOpcode
  | outOfBounds
  | unsupportedOperation
  deriving DecidableEq, Repr

/-- The sub-causes of OutOfBounds (R201). -/
inductive OobCause where
  | fetch
  | operand
  | regIdx
  | stackLow
  | stackHigh
  | retAddr
  deriving DecidableEq, Repr

/-- The operation selector of the arithmetic unit (R116): the two it implements, and any other, under a number.
How an unimplemented selector is numbered is the model's: DESIGN CHOICE, log entry 18. -/
inductive AluSelector where
  | add
  | mul
  | other (code : Nat)
  deriving DecidableEq, Repr

/-- The diagnostic record of an error (R33, R200, R201). -/
inductive FaultInfo where
  /-- OutOfBounds: the sub-cause and the offending number (-1 for STACK_LOW) -/
  | outOfBounds (sub : OobCause) (number : Int)
  /-- UnrecognizedOpcode: the pc and the byte fetched -/
  | unrecognizedOpcode (pc : PcWord) (byte : Byte)
  /-- UnsupportedOperation: the selector -/
  | unsupportedOperation (selector : AluSelector)
  deriving DecidableEq, Repr

/-- The complete state of the machine (R20). Nothing else is state (R35, R36). -/
structure State where
  /-- `M`: 256 cells of 8 bits (R50) -/
  mem : Memory
  /-- `x`: eight 8-bit general registers; `x[7]` is the stack pointer (R21, R23) -/
  regs : Vector Byte 8
  /-- `pc`: 9 bits, 0 to 256 reachable (R26) -/
  pc : PcWord
  /-- `fl` (R29) -/
  fl : Flags
  /-- `run` (R32) -/
  run : RunState
  /-- `cause` (R32) -/
  cause : Cause
  /-- `fault_info`: empty while `cause` is NONE_YET or HLT (R33) -/
  faultInfo : Option FaultInfo
  /-- `out`: the values emitted so far, oldest first (R34) -/
  out : List Byte
  deriving DecidableEq, Repr

/-- The ways a step of the MODEL can have no next state. The machine's own errors are none of these: they are
next states with `run = Halted` (R206). -/
inductive Fault where
  /-- Raised by `step` in a state with `run = Halted`: no step is defined from it (R32, R110). Safe: no claim
  about a further state of a halted machine can be proved. -/
  | halted
  /-- Raised by JEQ and JNE with `fl = NONE` when FLAGS_UNSET_READ is `fault` (R183): a model-level fault.
  Safe; never raised at the default `literal`. -/
  | flagsUnset
  deriving DecidableEq, Repr

/-- The ways the model refuses. -/
inductive Refusal where
  /-- An instruction with no meaning yet, rejected by name in `exec`. Safe. No arm of `exec` uses it. -/
  | notModelled (mnemonic : String)
  /-- Raised by the image load when the image is longer than 256 bytes or holds a number above 255 (R66): the
  launch is refused, no run exists. Safe. -/
  | imageOutsideContract
  deriving DecidableEq, Repr

/-- The state right after reset for a given SP_INIT (R37): every other element is at the value the rule gives. -/
def State.resetWith (sp : Byte) : State where
  mem := []
  regs := #v[0, 0, 0, 0, 0, 0, 0, sp]
  pc := 0
  fl := .none
  run := .running
  cause := .noneYet
  faultInfo := Option.none
  out := []

/-- The state right after reset (R37, R230, R231), at the default SP_INIT. -/
def State.reset : State := State.resetWith spInit

/-- What a step or a meaning answers. -/
abbrev Result := Host.Outcome State Fault Refusal

end Sys2Proof.Machine
end

