-- ==== Sys2Proof/Machine/Ops.lean ====
section
/-! DEFINITION. The named operations over memory, registers and the other elements of the state, and taking an
error, which on this machine is halting (60_exceptions.md, rule R206). -/

namespace Sys2Proof.Machine

/-! ### Memory as a canonical list (20_memory.md) -/

/-- What memory holds at an address; an unlisted address reads as 0 (R37: memory is zero-initialised). -/
def Memory.get : Memory → Nat → Byte
  | [], _ => 0
  | c :: m, a => if c.1 = a then c.2 else Memory.get m a

/-- Memory without any entry for the address `a`. -/
def Memory.erase : Memory → Nat → Memory
  | [], _ => []
  | c :: m, a => if c.1 = a then Memory.erase m a else c :: Memory.erase m a

/-- Memory with an entry put before the first higher address. -/
def Memory.insert : Memory → Nat → Byte → Memory
  | [], a, v => [(a, v)]
  | c :: m, a, v => if a < c.1 then (a, v) :: c :: m else c :: Memory.insert m a v

/-- `M[a] <- v`, keeping the canonical form: writing 0 leaves no entry. -/
def Memory.set (m : Memory) (a : Nat) (v : Byte) : Memory :=
  if v = 0 then Memory.erase m a else Memory.insert (Memory.erase m a) a v

/-- The canonical form: addresses strictly rising, every address valid (R51), no entry equal to 0. -/
abbrev Memory.wf (m : Memory) : Prop :=
  m.Pairwise (fun c d => c.1 < d.1) ∧ ∀ c ∈ m, c.1 < 256 ∧ c.2 ≠ 0

/-! ### The memory contract -/

/-- `M[a] <- v` on the state, for an address already known to be valid. -/
def State.setCell (s : State) (a : Nat) (v : Byte) : State := { s with mem := Memory.set s.mem a v }

/-- `MemRead(a, 1)` (R52): the byte at a natural-number address, or none where the contract raises OutOfBounds. -/
def State.memRead (s : State) (a : Nat) : Option Byte :=
  if a < 256 then some (Memory.get s.mem a) else Option.none

/-- `MemWrite(a, 1, v)` (R53): the state with the cell written, or none where the contract raises OutOfBounds. -/
def State.memWrite (s : State) (a : Nat) (v : Byte) : Option State :=
  if a < 256 then some (s.setCell a v) else Option.none

/-- A read at an 8-bit address, which the contract never refuses (R52: the stack reads). -/
def State.loadByte (s : State) (a : Byte) : Byte := Memory.get s.mem a.toNat

/-- A write at an 8-bit address, which the contract never refuses (R53: the stack writes). -/
def State.storeByte (s : State) (a v : Byte) : State := s.setCell a.toNat v

/-! ### Registers, program counter, flags, output -/

/-- `x[i]` (R21). No register is hard-wired (R22). -/
def State.reg (s : State) (i : RegIdx) : Byte := s.regs[i]

/-- `x[i] <- v` (R21). -/
def State.setReg (s : State) (i : RegIdx) (v : Byte) : State := { s with regs := s.regs.set i v }

/-- The stack pointer, `x[7]` (R23). -/
abbrev State.sp (s : State) : Byte := s.reg 7

/-- `x[7] <- v` (R23). -/
abbrev State.setSp (s : State) (v : Byte) : State := s.setReg 7 v

/-- `pc <- t` (R26). -/
def State.setPc (s : State) (t : PcWord) : State := { s with pc := t }

/-- `pc <- pc + n`, the sequential advance (R27); it is not reduced modulo 256 (R28). -/
def State.advance (s : State) (n : PcWord) : State := s.setPc (s.pc + n)

/-- `pc <- zext_9(v)`, an absolute transfer to an 8-bit target (R184). -/
def State.jumpTo (s : State) (v : Byte) : State := s.setPc (v.setWidth 9)

/-- `fl <- f` (R30). -/
def State.setFl (s : State) (f : Flags) : State := { s with fl := f }

/-- `out <- out ++ [v]` (R34). -/
def State.emit (s : State) (v : Byte) : State := { s with out := s.out ++ [v] }

/-! ### Halting and errors -/

/-- The cause that belongs to an error record (R200). -/
def FaultInfo.cause : FaultInfo → Cause
  | .outOfBounds _ _ => .outOfBounds
  | .unrecognizedOpcode _ _ => .unrecognizedOpcode
  | .unsupportedOperation _ => .unsupportedOperation

/-- The numbers of the causes (R32, R200). DESIGN CHOICE (spec D19), log entry 10. -/
def Cause.code : Cause → Nat
  | .noneYet => 0
  | .hlt => 1
  | .unrecognizedOpcode => 2
  | .outOfBounds => 3
  | .unsupportedOperation => 4

/-- TAKING AN ERROR, `raise E(info)` (R8, R206): `run`, `cause` and `fault_info` are written and nothing else
changes; `pc` keeps the address of the abandoned instruction. There is no vector, nothing is saved, and there is
no return from it (R208), so no operation stands beside it. -/
def State.raise (s : State) (e : FaultInfo) : State :=
  { s with run := .halted, cause := e.cause, faultInfo := some e }

/-- The normal halt (R112): `fault_info` and `pc` stay as they are. -/
def State.haltNormally (s : State) : State := { s with run := .halted, cause := .hlt }

/-! ### The stack pointer's two moves -/

/-- The decrement of PUSH and CALL (R150, R160): at 0 it raises OutOfBounds(STACK_LOW, -1) on `s`; else the rest
`k` goes on from the state with the new stack pointer. -/
def decSp (s : State) (k : State → Result) : Result :=
  if s.sp = 0 then .next (s.raise (.outOfBounds .stackLow (-1)))
  else k (s.setSp (s.sp - 1))

/-- The increment of POP and RET (R151, R161) of the stack pointer as it stands in `s'`: at 255 it raises
OutOfBounds(STACK_HIGH, 256) on the state `s` before the instruction; else the rest `k` goes on. -/
def incSp (s s' : State) (k : State → Result) : Result :=
  if s'.sp = 255 then .next (s.raise (.outOfBounds .stackHigh 256))
  else k (s'.setSp (s'.sp + 1))

end Sys2Proof.Machine
end

