-- ==== Sys2Proof/Machine/Fetch.lean ====
section
/-! DEFINITION. Fetching an instruction (40_cycle_dispatch.md, rule R110, steps 1 to 3, and the operand fetches
of the handlers, R114), and the host's deposit of bytes (20_memory.md, rule R66). -/

namespace Sys2Proof.Machine

/-- The bytes of memory at `pc`, `pc + 1` and `pc + 2` that exist, in ascending address order (R56). A read has no
side effect (R52), so reading the operands' cells here, before the opcode is recognised, cannot be observed
(DEDUCED, log entry 19). -/
def State.fetchWindow (s : State) : List Byte :=
  (List.range maxLength).filterMap fun k => s.memRead (s.pc.toNat + k)

/-- The instruction at `pc`, or the record of the first error in the order of R205: the opcode fetch (FETCH), the
recognition of the opcode (R113), the operand fetches in ascending address (OPERAND). -/
def fetchInstr (opc : OpcodeMap) (s : State) : Except FaultInfo Instr :=
  match decodeWith opc s.fetchWindow with
  | .ok i _ => .ok i
  | .noBytes => .error (.outOfBounds .fetch s.pc.toNat)
  | .unrecognized b => .error (.unrecognizedOpcode s.pc b)
  | .missingOperand _ k => .error (.outOfBounds .operand (s.pc.toNat + k : Nat))

/-- Bytes written at consecutive ascending addresses from `a`, each through the memory contract (R53, R66); one
whose address does not exist is dropped. -/
def State.storeBytes (s : State) : Nat → List Byte → State
  | _, [] => s
  | a, b :: bs => ((s.memWrite a b).getD s).storeBytes (a + 1) bs

end Sys2Proof.Machine
end

