-- ==== Sys2Proof/Machine/Load.lean ====
section
/-! DEFINITION. The program image input (20_memory.md, rule R66; 00_scope.md, rule R13): what the host does
between reset and the first step. -/

namespace Sys2Proof.Machine

/-- The contract of an image (R66): at most 256 elements, each 0 to 255. -/
def imageOk (img : List Nat) : Bool := decide (img.length ≤ 256) && img.all (fun n => decide (n ≤ 255))

/-- The image load (R66): the n-th element goes to address n and nothing else changes; an image outside its
contract is refused (spec D15, log entry 13). -/
def loadImage (img : List Nat) (s : State) : Result :=
  if imageOk img then .next (s.storeBytes 0 (img.map (BitVec.ofNat 8)))
  else .refused .imageOutsideContract

/-- Reset, then image load (R230): the state a run starts from, for a given SP_INIT. -/
def launch (sp : Byte) (img : List Nat) : Result := loadImage img (State.resetWith sp)

end Sys2Proof.Machine
end

