-- ==== Sys2Proof/Machine/Operands.lean ====
section
/-! DEFINITION. The operand forms: the operand bytes' addresses (10_state.md, rule R28) and the validation of
register operands (R25). An immediate needs no check (30_encoding.md, rule R82). -/

namespace Sys2Proof.Machine

/-- `RegIdx(b)` (R25): the whole byte as a register index, if it is below 8; it is never reduced to 3 bits. -/
def regIdx (b : Byte) : Option RegIdx :=
  if h : b.toNat < 8 then some ⟨b.toNat, h⟩ else Option.none

/-- A register operand (R25): a byte of 8 or more raises OutOfBounds(REGIDX, b). -/
def withReg (b : Byte) (s : State) (k : RegIdx → Result) : Result :=
  match regIdx b with
  | some r => k r
  | Option.none => .next (s.raise (.outOfBounds .regIdx b.toNat))

/-- The operand fetches of an instruction with `n` operand bytes (R28, R52): the first of the addresses `pc + 1`
to `pc + n` that is above 255 raises OutOfBounds(OPERAND, address). The bytes' values are the instruction's own. -/
def withOperandBytes (n : Nat) (s : State) (k : Result) : Result :=
  if s.pc.toNat + n < 256 then k
  else .next (s.raise (.outOfBounds .operand (max (s.pc.toNat + 1) 256 : Nat)))

end Sys2Proof.Machine
end

