-- ==== Sys2Proof/Machine/Arithmetic.lean ====
section
/-! DEFINITION. MUL and ADD over the one arithmetic unit (42_arithmetic.md; 40_cycle_dispatch.md, rule R116). -/

namespace Sys2Proof.Machine

/-- The arithmetic unit (R116): the exact unsigned sum or product, narrowed to its low 8 bits (R142); no result
for a selector it does not implement. DESIGN CHOICE (spec D1, D14), log entry 1. -/
def aluResult : AluSelector → Byte → Byte → Option Byte
  | .add, x, y => some (BitVec.ofNat 8 (x.toNat + y.toNat))
  | .mul, x, y => some (BitVec.ofNat 8 (x.toNat * y.toNat))
  | .other _, _, _ => Option.none

/-- An instruction of format RR through the arithmetic unit: both operands are read before the first is written
(R140, R141); an unimplemented selector raises UnsupportedOperation (R116). -/
def execAlu (sel : AluSelector) (regA regB : Byte) (s : State) : Result :=
  withOperandBytes 2 s <| withReg regA s fun a => withReg regB s fun b =>
    match aluResult sel (s.reg a) (s.reg b) with
    | some v => .next ((s.setReg a v).advance 3)
    | Option.none => .next (s.raise (.unsupportedOperation sel))

/-- MUL (R140): `x[a] <- (x[a] * x[b]) mod 256`. -/
def execMul (regA regB : Byte) (s : State) : Result := execAlu .mul regA regB s

/-- ADD (R141): `x[a] <- (x[a] + x[b]) mod 256`. -/
def execAdd (regA regB : Byte) (s : State) : Result := execAlu .add regA regB s

end Sys2Proof.Machine
end

