-- ==== Sys2Proof/Machine/Flags.lean ====
section
/-! DEFINITION. The flag computation of CMP (45_compare.md, rule R170), the tests of the conditional branches
(10_state.md, rule R30), and the suggested bit layout (R31). -/

namespace Sys2Proof.Machine

/-- R170: the first operand against the second, as unsigned values 0 to 255. DESIGN CHOICE (spec D13: unsigned),
log entry 12. -/
def compareBytes (x y : Byte) : Flags :=
  if x = y then .eq else if x.toNat > y.toNat then .gt else .lt

/-- The test of JEQ, `fl = EQ` (R30). NONE is not EQ. -/
def Flags.isEq (f : Flags) : Bool := f == .eq

/-- The test of JNE, `fl ≠ EQ` (R30). -/
def Flags.isNe (f : Flags) : Bool := f != .eq

/-- The 3-bit register (L, G, E) that R31 suggests for `fl`. No instruction can see it. PRESUMED (spec G3), log
entry 21. -/
def Flags.bits : Flags → BitVec 3
  | .none => 0b000#3
  | .eq => 0b001#3
  | .gt => 0b010#3
  | .lt => 0b100#3

end Sys2Proof.Machine
end

