-- ==== Sys2Proof/Machine/Branch.lean ====
section
/-! DEFINITION. JMP, JEQ and JNE (46_branch.md): absolute, register-indirect transfers (rule R184). -/

namespace Sys2Proof.Machine

/-- JMP (R180). -/
def execJmp (reg : Byte) (s : State) : Result :=
  withOperandBytes 1 s <| withReg reg s fun r => .next (s.jumpTo (s.reg r))

/-- A conditional branch (R181, R182): the register index is validated whether or not the branch is taken (spec
D20, log entry 15). With `fl = NONE` the parameter FLAGS_UNSET_READ decides (R183, log entry 4): `literal` applies
the test to NONE, `fault` gives no meaning. -/
def condBranch (unset : FlagsUnsetRead) (taken : Flags → Bool) (reg : Byte) (s : State) : Result :=
  withOperandBytes 1 s <| withReg reg s fun r =>
    if unset = .fault ∧ s.fl = .none then .fault .flagsUnset
    else if taken s.fl then .next (s.jumpTo (s.reg r))
    else .next (s.advance 2)

/-- JEQ (R181) under a value of FLAGS_UNSET_READ (R183): taken if and only if `fl = EQ`. -/
def jeqUnder (unset : FlagsUnsetRead) (reg : Byte) (s : State) : Result := condBranch unset Flags.isEq reg s

/-- JNE (R182) under a value of FLAGS_UNSET_READ (R183): taken if and only if `fl ≠ EQ`. -/
def jneUnder (unset : FlagsUnsetRead) (reg : Byte) (s : State) : Result := condBranch unset Flags.isNe reg s

/-- JEQ (R181) at the default of FLAGS_UNSET_READ. -/
def execJeq (reg : Byte) (s : State) : Result := jeqUnder flagsUnsetRead reg s

/-- JNE (R182) at the default of FLAGS_UNSET_READ. -/
def execJne (reg : Byte) (s : State) : Result := jneUnder flagsUnsetRead reg s

end Sys2Proof.Machine
end

