-- ==== Sys2Proof/Machine/Compare.lean ====
section
/-! DEFINITION. CMP (45_compare.md). -/

namespace Sys2Proof.Machine

/-- CMP (R170): `fl` becomes the comparison of `x[a]` with `x[b]`, whatever it was. -/
def execCmp (regA regB : Byte) (s : State) : Result :=
  withOperandBytes 2 s <| withReg regA s fun a => withReg regB s fun b =>
    .next ((s.setFl (compareBytes (s.reg a) (s.reg b))).advance 3)

end Sys2Proof.Machine
end

