-- ==== Sys2Proof/Machine/Control.lean ====
section
/-! DEFINITION. HLT (40_cycle_dispatch.md). -/

namespace Sys2Proof.Machine

/-- HLT (R112): `run <- Halted`, `cause <- HLT`; it fetches no operand byte, and `pc` stays at the HLT byte. -/
def execHlt (s : State) : Result := .next s.haltNormally

end Sys2Proof.Machine
end

