-- ==== Sys2Proof/Machine/Output.lean ====
section
/-! DEFINITION. PRN and LDI (41_output_load.md). -/

namespace Sys2Proof.Machine

/-- PRN (R130): append the unsigned value of a register to `out`. -/
def execPrn (reg : Byte) (s : State) : Result :=
  withOperandBytes 1 s <| withReg reg s fun r =>
    .next ((s.emit (s.reg r)).advance 2)

/-- LDI (R131): the immediate byte, as it is, into a register. -/
def execLdi (reg imm : Byte) (s : State) : Result :=
  withOperandBytes 2 s <| withReg reg s fun r =>
    .next ((s.setReg r imm).advance 3)

end Sys2Proof.Machine
end

