-- ==== Sys2Proof/Machine/Stack.lean ====
section
/-! DEFINITION. PUSH and POP (43_stack.md): a full-descending stack addressed by `x[7]` (rule R152). -/

namespace Sys2Proof.Machine

/-- PUSH (R150): the stack pointer is decremented first and `x[r]` is read after that, so PUSH R7 stores the new
stack pointer (DESIGN CHOICE, spec D29, log entry 17). -/
def execPush (reg : Byte) (s : State) : Result :=
  withOperandBytes 1 s <| withReg reg s fun r =>
    decSp s fun s1 => .next ((s1.storeByte s1.sp (s1.reg r)).advance 2)

/-- POP (R151): the register is written first and the increment acts on `x[7]` as it then stands, so POP R7
leaves the popped byte plus 1 (spec D29, log entry 17); at 255 the increment raises (spec D9, log entry 9). -/
def execPop (reg : Byte) (s : State) : Result :=
  withOperandBytes 1 s <| withReg reg s fun r =>
    incSp s (s.setReg r (s.loadByte s.sp)) fun s1 => .next (s1.advance 2)

end Sys2Proof.Machine
end

