-- ==== Sys2Proof/Machine/Subroutine.lean ====
section
/-! DEFINITION. CALL and RET (44_call_return.md): the return address is one byte on the memory stack (R163). -/

namespace Sys2Proof.Machine

/-- CALL (R160): the stack pointer's check, then the return address's (at `pc = 254` it is 256, no address:
OutOfBounds(RETADDR), spec D21, log entry 16), then the writes; the target `x[r]` is read after the decrement
(spec D29, log entry 17). -/
def execCall (reg : Byte) (s : State) : Result :=
  withOperandBytes 1 s <| withReg reg s fun r =>
    decSp s fun s1 =>
      if s.pc.toNat + 2 < 256 then
        .next ((s1.storeByte s1.sp (BitVec.ofNat 8 (s.pc.toNat + 2))).jumpTo (s1.reg r))
      else .next (s.raise (.outOfBounds .retAddr (s.pc.toNat + 2 : Nat)))

/-- RET (R161): pop a byte into `pc`; no operand byte is fetched. -/
def execRet (s : State) : Result :=
  incSp s s fun s1 => .next (s1.jumpTo (s.loadByte s.sp))

end Sys2Proof.Machine
end

