-- ==== Sys2Proof/Machine/Under.lean ====
section
/-! DEFINITION. The instructions under the parameter FLAGS_UNSET_READ (00_scope.md, rule R5; 46_branch.md, rule
R183). `exec` is the instance at the default value. -/

namespace Sys2Proof.Machine

/-- The meaning of an instruction under a value of FLAGS_UNSET_READ: JEQ and JNE take it (R183), and no other
instruction reads `fl` (R30). -/
def execUnder (unset : FlagsUnsetRead) (i : Instr) (s : State) : Result :=
  match i with
  | .jeq reg => jeqUnder unset reg s
  | .jne reg => jneUnder unset reg s
  | .prn _ | .ldi _ _ | .mul _ _ | .add _ _ | .push _ | .pop _ | .call _ | .ret | .cmp _ _ | .jmp _ | .hlt => exec i s

end Sys2Proof.Machine
end

