-- ==== Sys2Proof/Machine/Step.lean ====
section
/-! DEFINITION. The step (40_cycle_dispatch.md, rule R110): one whole instruction (00_scope.md, rule R10). -/

namespace Sys2Proof.Machine

/-- The step under an opcode map (R84) and a value of FLAGS_UNSET_READ (R183): defined only when `run = Running`
(R110); an error of the fetch is taken as R206 says; otherwise the instruction is executed. -/
def stepUnder (opc : OpcodeMap) (unset : FlagsUnsetRead) (s : State) : Host.Outcome State Fault Refusal :=
  match s.run with
  | .halted => .fault .halted
  | .running =>
    match fetchInstr opc s with
    | .ok i => execUnder unset i s
    | .error e => .next (s.raise e)

/-- The step at the defaults of both parameters (R5, R110). -/
def step (s : State) : Host.Outcome State Fault Refusal := stepUnder defaultOpc flagsUnsetRead s

/-- `s` with an instruction of `nbits` bits stored where the next step fetches: at `pc`, the bits above `nbits`
zero, up to the longest instruction. It stands for the host's deposit of a program (log entry 13). -/
def State.withFetchWord (s : State) (nbits w : Nat) : State := s.storeBytes s.pc.toNat (wordBytes nbits w)

end Sys2Proof.Machine
end

