-- ==== Sys2Proof/Machine/Run.lean ====
section
/-! DEFINITION. The run and its read-out (40_cycle_dispatch.md, rules R115, R117; 00_scope.md, rule R16). -/

namespace Sys2Proof.Machine

/-- The run loop (R115) under an opcode map, a value of FLAGS_UNSET_READ and fuel: steps until
`run = Halted`, or until the fuel is spent. -/
def runFor (opc : OpcodeMap) (unset : FlagsUnsetRead) : Nat → State → Result
  | 0, s => .next s
  | n + 1, s =>
    match s.run with
    | .halted => .next s
    | .running =>
      match stepUnder opc unset s with
      | .next t => runFor opc unset n t
      | .fault r => .fault r
      | .refused r => .refused r

/-- What the host reads after a run (R16, R207). -/
structure ReadOut where
  out : List Byte
  run : RunState
  cause : Cause
  faultInfo : Option FaultInfo
  deriving DecidableEq, Repr

/-- The read-out of a state (R16). -/
def State.readOut (s : State) : ReadOut := ⟨s.out, s.run, s.cause, s.faultInfo⟩

end Sys2Proof.Machine
end

