-- ==== Sys2Proof/Safety.lean ====
section
/-! DEFINITION. The terms in which claims about the machine are stated: how a run ends, the machine's invariant,
reachability, and the spec's tables of register accesses and of the next program counter. -/

namespace Sys2Proof.Machine

/-- A successful end of a run (R117): halted, by HLT. -/
def State.Successful (s : State) : Prop := s.run = .halted ∧ s.cause = .hlt

/-- An abnormal end of a run (R117, R207). -/
def State.Failed (s : State) : Prop := s.run = .halted ∧ s.cause ≠ .hlt

/-- `s` halted with a cause and a diagnostic record, all else as it was: the spec's picture of an error (R206). -/
def State.stopped (s : State) (c : Cause) (e : FaultInfo) : State :=
  { s with run := .halted, cause := c, faultInfo := some e }

/-- The invariant of the machine between steps: memory is in its canonical form; `pc` is 0 to 256 (R26);
`run = Halted` if and only if `cause ≠ NONE_YET` (R32); `fault_info` is empty exactly while `cause` is NONE_YET or
HLT, and otherwise is a record of that cause (R33). -/
structure State.Inv (s : State) : Prop where
  mem_wf : Memory.wf s.mem
  pc_le : s.pc.toNat ≤ 256
  halted_iff : s.run = .halted ↔ s.cause ≠ .noneYet
  no_info : s.faultInfo = Option.none ↔ s.cause = .noneYet ∨ s.cause = .hlt
  info_cause : ∀ e, s.faultInfo = some e → s.cause = e.cause

/-- The states a run passes through from `s` (R115), under an opcode map and a value of FLAGS_UNSET_READ. -/
inductive Reaches (opc : OpcodeMap) (unset : FlagsUnsetRead) (s : State) : State → Prop where
  | refl : Reaches opc unset s s
  | step {t u : State} (h : Reaches opc unset s t) (hu : stepUnder opc unset t = .next u) : Reaches opc unset s u

/-- The next step from `s` is a conditional branch, with a valid operand, before any comparison: the one case that
FLAGS_UNSET_READ decides (R183). -/
def State.BranchesUnset (opc : OpcodeMap) (s : State) : Prop :=
  s.run = .running ∧ s.fl = .none ∧ ∃ b : Byte, b.toNat < 8 ∧
    (fetchInstr opc s = .ok (.jeq b) ∨ fetchInstr opc s = .ok (.jne b))

/-- Two states that agree on everything the machine ever reads: memory, registers, `pc`, `fl` and `run`. What they
may differ in is what only the host reads: `cause`, `fault_info` and `out` (R32, R33, R34). -/
def State.SameCore (s t : State) : Prop :=
  s.mem = t.mem ∧ s.regs = t.regs ∧ s.pc = t.pc ∧ s.fl = t.fl ∧ s.run = t.run

/-- R24, the column "writes": the registers an instruction may change. -/
def Writes (i : Instr) (j : RegIdx) : Prop :=
  match i with
  | .ldi r _ => j.val = r.toNat
  | .mul a _ => j.val = a.toNat
  | .add a _ => j.val = a.toNat
  | .push _ => j = 7
  | .pop r => j.val = r.toNat ∨ j = 7
  | .call _ => j = 7
  | .ret => j = 7
  | .prn _ => False
  | .cmp _ _ => False
  | .jmp _ => False
  | .jeq _ => False
  | .jne _ => False
  | .hlt => False

/-- R24, the column "reads": the registers whose value an instruction uses, a branch's only when it is taken. -/
def Reads (i : Instr) (f : Flags) (j : RegIdx) : Prop :=
  match i with
  | .prn r => j.val = r.toNat
  | .ldi _ _ => False
  | .mul a b => j.val = a.toNat ∨ j.val = b.toNat
  | .add a b => j.val = a.toNat ∨ j.val = b.toNat
  | .push r => j = 7 ∨ j.val = r.toNat
  | .pop _ => j = 7
  | .call r => j = 7 ∨ j.val = r.toNat
  | .ret => j = 7
  | .cmp a b => j.val = a.toNat ∨ j.val = b.toNat
  | .jmp r => j.val = r.toNat
  | .jeq r => f = .eq ∧ j.val = r.toNat
  | .jne r => f ≠ .eq ∧ j.val = r.toNat
  | .hlt => False

/-- The value of the register a byte names, in a state; none if it names none (R25). -/
def State.regNamed (s : State) (b : Byte) : Option Byte :=
  if h : b.toNat < 8 then some (s.reg ⟨b.toNat, h⟩) else Option.none

/-- R27, the table: the next `pc` of an instruction that completes, as a number. `s` is the state before it and `t`
the state after it; CALL's and the jumps' target is the register's value in `t` (a transfer leaves its register as
it is, R184, and CALL reads it after the decrement, R160). -/
def NextPc (i : Instr) (s t : State) : Option Nat :=
  match i with
  | .prn _ => some (s.pc.toNat + 2)
  | .push _ => some (s.pc.toNat + 2)
  | .pop _ => some (s.pc.toNat + 2)
  | .ldi _ _ => some (s.pc.toNat + 3)
  | .mul _ _ => some (s.pc.toNat + 3)
  | .add _ _ => some (s.pc.toNat + 3)
  | .cmp _ _ => some (s.pc.toNat + 3)
  | .call r => (t.regNamed r).map BitVec.toNat
  | .ret => (s.memRead (s.reg 7).toNat).map BitVec.toNat
  | .jmp r => (t.regNamed r).map BitVec.toNat
  | .jeq r => if s.fl = .eq then (t.regNamed r).map BitVec.toNat else some (s.pc.toNat + 2)
  | .jne r => if s.fl ≠ .eq then (t.regNamed r).map BitVec.toNat else some (s.pc.toNat + 2)
  | .hlt => Option.none

end Sys2Proof.Machine
end

