-- ==== Sys2Proof/Certificates/Slice0/Obligations.lean ====
section
/-! DEFINITION. The statements about the model. Each docstring names the rule of spec/ it is about; where a clause
rests on a point the spec marks as its own decision (D<n> of 92_eei_decisions.md) or as general knowledge, it says
so and names the log entry. No statement rests on the default SP_INIT. -/

open Sys2Proof Sys2Proof.Machine

/-! ## Reset -/

/-- R37, the whole table: what reset leaves in every element of the state, for every value of the parameter SP_INIT,
and the model's reset state is one of these. That `fl` has a fourth value NONE is the spec's own decision (D5, log
entry 4), and so is the number 0 of NONE_YET (D19, log entry 10). -/
def Obligations.ResetLeavesTheStatedValues : Prop :=
  (∀ sp : Byte,
    (∀ a, a ≤ 255 → (State.resetWith sp).memRead a = some 0) ∧
    (∀ i : RegIdx, i ≠ 7 → (State.resetWith sp).reg i = 0) ∧
    (State.resetWith sp).reg 7 = sp ∧
    (State.resetWith sp).pc = 0 ∧
    (State.resetWith sp).fl = .none ∧
    (State.resetWith sp).run = .running ∧
    (State.resetWith sp).cause = .noneYet ∧ (State.resetWith sp).cause.code = 0 ∧
    (State.resetWith sp).faultInfo = none ∧
    (State.resetWith sp).out = []) ∧
  ∃ sp : Byte, State.reset = State.resetWith sp

/-! ## Encoding -/

/-- One word per instruction, written from the formats of R81 and the default opcode values of R83, decodes to that
instruction; a byte that is no opcode decodes to none. The opcode values are the spec's general knowledge (G1, D2;
log entry 2), the model's choice of the parameter OPC. -/
def Obligations.OpcodeWordsDecode : Prop :=
  decodeTableWord 16 0x0347 = some (.prn 3) ∧
  decodeTableWord 24 0x080082 = some (.ldi 0 8) ∧
  decodeTableWord 24 0x0201A2 = some (.mul 1 2) ∧
  decodeTableWord 24 0x0007A0 = some (.add 7 0) ∧
  decodeTableWord 16 0x0545 = some (.push 5) ∧
  decodeTableWord 16 0x0146 = some (.pop 1) ∧
  decodeTableWord 16 0x0150 = some (.call 1) ∧
  decodeTableWord 8 0x11 = some .ret ∧
  decodeTableWord 24 0x0100A7 = some (.cmp 0 1) ∧
  decodeTableWord 16 0x0254 = some (.jmp 2) ∧
  decodeTableWord 16 0x0255 = some (.jeq 2) ∧
  decodeTableWord 16 0x0256 = some (.jne 2) ∧
  decodeTableWord 8 0x01 = some .hlt ∧
  decodeTableWord 8 0x00 = none ∧
  decodeTableWord 24 0x0100A1 = none

/-- Rule R87 at the default opcode map (D2; log entry 2): exactly these thirteen byte values are opcodes. -/
def Obligations.EveryOtherByteIsUnrecognised : Prop :=
  ∀ b : Byte, decodeOpcode defaultOpc b = none ↔
    b ∉ ([0x01, 0x11, 0x45, 0x46, 0x47, 0x50, 0x54, 0x55, 0x56, 0x82, 0xA0, 0xA2, 0xA7] : List Byte)

/-- Rule R85, under every opcode map that R84 admits: a byte decodes to `m` exactly when it is `OPC(m)`, to
unrecognised exactly when it is the byte of no mnemonic, and the bytes after it play no part in that choice. -/
def Obligations.OpcodeDecodingIsExact : Prop :=
  ∀ opc : OpcodeMap, opc.Lawful → ∀ b : Byte,
    (∀ m, decodeOpcode opc b = some m ↔ b = opc m) ∧
    (decodeOpcode opc b = none ↔ ∀ m, b ≠ opc m) ∧
    (∀ rest, decodeWith opc (b :: rest) = .unrecognized b ↔ ∀ m, b ≠ opc m) ∧
    (∀ i rest rest', decodeWith opc (b :: rest) = .ok i rest' → b = opc i.mnemonic)

/-- Decoding the encoding of an instruction gives it back, whatever its operand bytes, whatever stands after it,
under every opcode map that R84 admits (R81, R84, R85). -/
def Obligations.DecodeOfEncodeIsTheInstruction : Prop :=
  ∀ opc : OpcodeMap, opc.Lawful → ∀ (i : Instr) (rest : List Byte),
    decodeWith opc (encodeWith opc i ++ rest) = .ok i rest

/-- The other direction: bytes that decode to an instruction are its encoding and the rest, under any opcode map;
so an instruction has one encoding and the decoder drops no byte (R80, R81, R85). -/
def Obligations.DecodedBytesAreTheEncoding : Prop :=
  ∀ (opc : OpcodeMap) (bs : List Byte) (i : Instr) (rest : List Byte),
    decodeWith opc bs = .ok i rest → bs = encodeWith opc i ++ rest

/-! ## The step -/

/-- When the bytes at the program counter decode to `i`, the step is `exec i` and nothing else (R110, R111), at the
defaults of the parameters (log entries 2 and 4). -/
def Obligations.StepRunsTheDecodedInstruction : Prop :=
  ∀ (s : State) (i : Instr) (rest : List Byte),
    s.run = .running → decode s.fetchWindow = .ok i rest → step s = exec i s

/-- When the cells from `pc` on hold the encoding of `i`, the step is `i`'s meaning, under every opcode map that R84
admits and both values of FLAGS_UNSET_READ (R56, R81, R110); at the default value that meaning is `exec i`. -/
def Obligations.StepRunsTheInstructionEncodedAtPc : Prop :=
  ∀ opc : OpcodeMap, opc.Lawful → ∀ (unset : FlagsUnsetRead) (s : State) (i : Instr),
    s.run = .running →
    (∀ k b, (encodeWith opc i)[k]? = some b → s.memRead (s.pc.toNat + k) = some b) →
    stepUnder opc unset s = execUnder unset i s ∧ execUnder flagsUnsetRead i s = exec i s

/-- Rule R56: what is fetched stands at ascending addresses, the opcode at `pc`, the first operand named at `pc + 1`
and the second at `pc + 2`, and the image is deposited in the same order, its n-th byte at address n. -/
def Obligations.InstructionBytesAscend : Prop :=
  (∀ (opc : OpcodeMap) (s : State) (i : Instr), fetchInstr opc s = .ok i →
    s.memRead s.pc.toNat = some (opc i.mnemonic) ∧
    (∀ k v, i.operandBytes[k]? = some v → s.memRead (s.pc.toNat + 1 + k) = some v)) ∧
  (∀ (opc : OpcodeMap) (s : State) (p q : Byte),
    fetchInstr opc s = .ok (.ldi p q) ∨ fetchInstr opc s = .ok (.mul p q) ∨
      fetchInstr opc s = .ok (.add p q) ∨ fetchInstr opc s = .ok (.cmp p q) →
    s.memRead (s.pc.toNat + 1) = some p ∧ s.memRead (s.pc.toNat + 2) = some q) ∧
  (∀ (sp : Byte) (img : List Nat) (s : State), launch sp img = .next s →
    ∀ n v, img[n]? = some v → s.memRead n = some (BitVec.ofNat 8 v))

/-- Rule R80: an instruction is one opcode byte and 0, 1 or 2 operand bytes, and the opcode byte alone decides how
many: two byte sequences that begin with the same byte decode to instructions of the same length. -/
def Obligations.OpcodeByteAloneDecidesTheLength : Prop :=
  (∀ (opc : OpcodeMap) (bs : List Byte) (i : Instr) (rest : List Byte), decodeWith opc bs = .ok i rest →
    bs.length = 1 + i.operandBytes.length + rest.length ∧ i.operandBytes.length ≤ 2) ∧
  (∀ (opc : OpcodeMap) (b : Byte) (bs bs' : List Byte) (i i' : Instr) (rest rest' : List Byte),
    decodeWith opc (b :: bs) = .ok i rest → decodeWith opc (b :: bs') = .ok i' rest' →
    i.operandBytes.length = i'.operandBytes.length)

/-- Every running state has a next state but for the one case of R183 under `fault`, and no step is defined from a
halted one (R32, R110, R115, U12), under any opcode map. That the parameter exists is D5 (log entry 4); the last
clause is the model's picture of "no step", the fault `halted` (D17; log entry 11). -/
def Obligations.StepAnswersExactlyWhenRunning : Prop :=
  ∀ (opc : OpcodeMap) (s : State),
    (s.run = .running → ∃ t, stepUnder opc .literal s = .next t) ∧
    (s.run = .running → ¬ s.BranchesUnset opc → ∃ t, stepUnder opc .fault s = .next t) ∧
    (s.BranchesUnset opc → stepUnder opc .fault s = .fault .flagsUnset) ∧
    (s.run = .halted → ∀ unset, stepUnder opc unset s = .fault .halted)

/-- R113: an unrecognised opcode halts the run with cause UNRECOGNIZED_OPCODE, code 2, records the pc and the byte,
and changes nothing else. The record is the spec's own decision (D11) and so is the code (D19), log entry 10. -/
def Obligations.UnrecognisedOpcodeStopsTheRun : Prop :=
  ∀ (opc : OpcodeMap) (unset : FlagsUnsetRead) (s : State) (b : Byte),
    s.run = .running → s.memRead s.pc.toNat = some b → (∀ m, b ≠ opc m) →
    stepUnder opc unset s = .next { s with
      run := .halted, cause := .unrecognizedOpcode, faultInfo := some (.unrecognizedOpcode s.pc b) } ∧
    Cause.code .unrecognizedOpcode = 2

/-- There is no wrap-around at the top of memory (R28; the record is D11, log entries 6 and 10): a fetch at a `pc`
above 255 raises OutOfBounds(FETCH), and a recognised opcode with an operand byte past 255 raises
OutOfBounds(OPERAND, 256). -/
def Obligations.NoWrapPastTheTopOfMemory : Prop :=
  ∀ opc : OpcodeMap, opc.Lawful → ∀ (unset : FlagsUnsetRead) (s : State), s.run = .running →
    (256 ≤ s.pc.toNat →
      stepUnder opc unset s = .next (s.stopped .outOfBounds (.outOfBounds .fetch s.pc.toNat))) ∧
    (∀ m, s.memRead s.pc.toNat = some (opc m) → 256 ≤ s.pc.toNat + m.operandCount →
      stepUnder opc unset s = .next (s.stopped .outOfBounds (.outOfBounds .operand 256)))

/-- The same check made by the meaning itself, which is never asked to run past the end of memory (R28, R114; log
entry 20). -/
def Obligations.ExecChecksItsOperandAddresses : Prop :=
  ∀ (i : Instr) (s : State), s.pc.toNat ≤ 255 → 256 ≤ s.pc.toNat + i.mnemonic.operandCount →
    exec i s = .next (s.stopped .outOfBounds (.outOfBounds .operand 256))

/-- R206 and R8: a step that ends the run by anything but HLT changes `run`, `cause` and `fault_info` and nothing
else, and the cause is the record's. That errors are precise is the spec's own decision (D7, D8, D16; log entries 7,
8 and 11). -/
def Obligations.ErrorsArePrecise : Prop :=
  ∀ (opc : OpcodeMap) (unset : FlagsUnsetRead) (s t : State), stepUnder opc unset s = .next t →
    t.run = .halted → t.cause ≠ .hlt →
    ∃ e : FaultInfo, t = s.stopped e.cause e

/-- R25: the first register operand byte, in operand order, that is 8 or more raises OutOfBounds(REGIDX, byte), in
every instruction that has one, taken branch or not (D20, log entry 15; the order and the record are D27 and D11, log
entry 10), before any other check but the operand fetches. -/
def Obligations.InvalidRegisterIndexRaises : Prop :=
  ∀ (i : Instr) (s : State) (b : Byte),
    i.registerOperands.find? (fun r => decide (8 ≤ r.toNat)) = some b →
    s.pc.toNat + i.mnemonic.operandCount ≤ 255 →
    exec i s = .next (s.stopped .outOfBounds (.outOfBounds .regIdx b.toNat))

/-- A step ends the run successfully exactly when the opcode at `pc` is HLT's (R112, R117). -/
def Obligations.SuccessOnlyThroughHlt : Prop :=
  ∀ opc : OpcodeMap, opc.Lawful → ∀ (unset : FlagsUnsetRead) (s t : State), s.run = .running →
    stepUnder opc unset s = .next t →
    (t.Successful ↔ s.memRead s.pc.toNat = some (opc .hlt))

/-! ## The instructions -/

/-- HLT (R112). That `pc` stays at the HLT byte is the spec's own decision (D7, log entry 7). -/
def Obligations.HltHalts : Prop :=
  ∀ s : State, exec .hlt s = .next { s with run := .halted, cause := .hlt }

/-- PRN (R130), whole: the value appended and `pc + 2`; OutOfBounds of a bad register index; OutOfBounds of the
operand fetch at 255. Nothing else changes. That an error writes nothing is D8 (log entry 8), its record D11 (log
entry 10), the unsigned value D18 (log entry 14). -/
def Obligations.PrnEmitsTheRegister : Prop :=
  ∀ (b : Byte) (s : State),
    (∀ h : b.toNat < 8, s.pc.toNat + 1 ≤ 255 →
      exec (.prn b) s = .next { s with out := s.out ++ [s.reg ⟨b.toNat, h⟩], pc := s.pc + 2 }) ∧
    (8 ≤ b.toNat → s.pc.toNat + 1 ≤ 255 →
      exec (.prn b) s = .next (s.stopped .outOfBounds (.outOfBounds .regIdx b.toNat))) ∧
    (s.pc = 255 → exec (.prn b) s = .next (s.stopped .outOfBounds (.outOfBounds .operand 256)))

/-- LDI (R131), whole: the register holds the immediate byte, every other register its old value, and `pc + 3`;
OutOfBounds of a bad register index; OutOfBounds of an operand fetch at 254 and 255. Nothing else changes. That an
error writes nothing is D8 (log entry 8), its record D11 (log entry 10). -/
def Obligations.LdiLoadsTheImmediate : Prop :=
  ∀ (b imm : Byte) (s : State),
    (∀ h : b.toNat < 8, s.pc.toNat + 2 ≤ 255 →
      exec (.ldi b imm) s = .next { s with regs := s.regs.set b.toNat imm h, pc := s.pc + 3 }) ∧
    (8 ≤ b.toNat → s.pc.toNat + 2 ≤ 255 →
      exec (.ldi b imm) s = .next (s.stopped .outOfBounds (.outOfBounds .regIdx b.toNat))) ∧
    (s.pc = 254 ∨ s.pc = 255 →
      exec (.ldi b imm) s = .next (s.stopped .outOfBounds (.outOfBounds .operand 256)))

/-- MUL (R140) with valid operands: the unsigned product's low 8 bits (D1, log entry 1) in `x[a]`, `pc + 3`, and
nothing else changed, `fl` included. Its errors are in InvalidRegisterIndexRaises and
ExecChecksItsOperandAddresses. -/
def Obligations.MulMultiplies : Prop :=
  ∀ (p q : Byte) (s : State) (hp : p.toNat < 8) (hq : q.toNat < 8), s.pc.toNat + 2 ≤ 255 →
    ∃ t, exec (.mul p q) s = .next t ∧
      (t.reg ⟨p.toNat, hp⟩).toNat = ((s.reg ⟨p.toNat, hp⟩).toNat * (s.reg ⟨q.toNat, hq⟩).toNat) % 256 ∧
      (∀ j : RegIdx, j.val ≠ p.toNat → t.reg j = s.reg j) ∧
      t.pc.toNat = s.pc.toNat + 3 ∧
      (∀ a, t.memRead a = s.memRead a) ∧ t.fl = s.fl ∧ t.run = s.run ∧ t.cause = s.cause ∧
      t.faultInfo = s.faultInfo ∧ t.out = s.out

/-- ADD (R141) with valid operands: the unsigned sum's low 8 bits (D1, log entry 1) in `x[a]`, `pc + 3`, and nothing
else changed, `fl` included. Its errors are in InvalidRegisterIndexRaises and ExecChecksItsOperandAddresses. -/
def Obligations.AddAdds : Prop :=
  ∀ (p q : Byte) (s : State) (hp : p.toNat < 8) (hq : q.toNat < 8), s.pc.toNat + 2 ≤ 255 →
    ∃ t, exec (.add p q) s = .next t ∧
      (t.reg ⟨p.toNat, hp⟩).toNat = ((s.reg ⟨p.toNat, hp⟩).toNat + (s.reg ⟨q.toNat, hq⟩).toNat) % 256 ∧
      (∀ j : RegIdx, j.val ≠ p.toNat → t.reg j = s.reg j) ∧
      t.pc.toNat = s.pc.toNat + 3 ∧
      (∀ a, t.memRead a = s.memRead a) ∧ t.fl = s.fl ∧ t.run = s.run ∧ t.cause = s.cause ∧
      t.faultInfo = s.faultInfo ∧ t.out = s.out

/-- The arithmetic unit (R116): MUL and ADD go through it, and any other selector raises UnsupportedOperation. The
selector's type is the model's (D25; log entry 18). -/
def Obligations.AluImplementsOnlyAddAndMul : Prop :=
  (∀ (p q : Byte) (s : State), exec (.mul p q) s = execAlu .mul p q s ∧ exec (.add p q) s = execAlu .add p q s) ∧
  (∀ (c : Nat) (p q : Byte) (s : State), p.toNat < 8 → q.toNat < 8 → s.pc.toNat + 2 ≤ 255 →
    execAlu (.other c) p q s =
      .next (s.stopped .unsupportedOperation (.unsupportedOperation (.other c))))

/-- No step of a program raises UnsupportedOperation (R116, R203; D25, log entry 18): the cause is never newly that
one. -/
def Obligations.UnsupportedOperationIsUnreachable : Prop :=
  ∀ (opc : OpcodeMap) (unset : FlagsUnsetRead) (s t : State), stepUnder opc unset s = .next t →
    t.cause = .unsupportedOperation →
    s.cause = .unsupportedOperation

/-- PUSH (R150). With a stack pointer that is not 0: `x[7]` one lower, the cell it now addresses holds `x[r]` read
after the decrement (so PUSH R7 stores the new stack pointer, D29, log entry 17), `pc + 2`, and nothing else changed.
With the stack pointer at 0: OutOfBounds(STACK_LOW, -1), nothing written (D8, log entry 8). -/
def Obligations.PushStoresBelowTheStackPointer : Prop :=
  ∀ (b : Byte) (s : State) (h : b.toNat < 8), s.pc.toNat + 1 ≤ 255 →
    (s.reg 7 ≠ 0 → ∃ t, exec (.push b) s = .next t ∧
      t.reg 7 = s.reg 7 - 1 ∧ (∀ j : RegIdx, j ≠ 7 → t.reg j = s.reg j) ∧
      t.memRead ((s.reg 7).toNat - 1) = some (if b = 7 then s.reg 7 - 1 else s.reg ⟨b.toNat, h⟩) ∧
      (∀ a, a ≠ (s.reg 7).toNat - 1 → t.memRead a = s.memRead a) ∧
      t.pc.toNat = s.pc.toNat + 2 ∧ t.fl = s.fl ∧ t.run = s.run ∧ t.cause = s.cause ∧
      t.faultInfo = s.faultInfo ∧ t.out = s.out) ∧
    (s.reg 7 = 0 → exec (.push b) s = .next (s.stopped .outOfBounds (.outOfBounds .stackLow (-1))))

/-- POP (R151), with `v` the byte at the stack pointer and `t7` what `x[7]` holds after the write of `x[r]`. If `t7`
is not 255: `x[r] = v`, then `x[7] = t7 + 1` (so POP R7 leaves `v + 1`, D29, log entry 17), `pc + 2`, memory and all
else unchanged. If it is 255: OutOfBounds(STACK_HIGH, 256), nothing written (D9, log entry 9). -/
def Obligations.PopLoadsFromTheStackPointer : Prop :=
  ∀ (b : Byte) (s : State) (h : b.toNat < 8) (v t7 : Byte), s.pc.toNat + 1 ≤ 255 →
    s.memRead (s.reg 7).toNat = some v → t7 = (if b = 7 then v else s.reg 7) →
    (t7 ≠ 255 → ∃ t, exec (.pop b) s = .next t ∧
      t.reg 7 = t7 + 1 ∧ (b ≠ 7 → t.reg ⟨b.toNat, h⟩ = v) ∧
      (∀ j : RegIdx, j ≠ 7 → j.val ≠ b.toNat → t.reg j = s.reg j) ∧
      (∀ a, t.memRead a = s.memRead a) ∧
      t.pc.toNat = s.pc.toNat + 2 ∧ t.fl = s.fl ∧ t.run = s.run ∧ t.cause = s.cause ∧
      t.faultInfo = s.faultInfo ∧ t.out = s.out) ∧
    (t7 = 255 → exec (.pop b) s = .next (s.stopped .outOfBounds (.outOfBounds .stackHigh 256)))

/-- CALL (R160). With a stack pointer that is not 0 and a return address `pc + 2` that is an address: `x[7]` one
lower, the cell it now addresses holds `pc + 2`, `pc` is `x[r]` read after the decrement (CALL R7: D29, log entry
17), and nothing else changed. With the stack pointer at 0: OutOfBounds(STACK_LOW, -1). Else at `pc = 254`:
OutOfBounds(RETADDR, 256) (D21, log entry 16). Nothing is written by an error (D8, log entry 8). -/
def Obligations.CallPushesTheReturnAddress : Prop :=
  ∀ (b : Byte) (s : State) (h : b.toNat < 8), s.pc.toNat + 1 ≤ 255 →
    (s.reg 7 ≠ 0 → s.pc.toNat + 2 ≤ 255 → ∃ t, exec (.call b) s = .next t ∧
      t.reg 7 = s.reg 7 - 1 ∧ (∀ j : RegIdx, j ≠ 7 → t.reg j = s.reg j) ∧
      (∃ ra : Byte, ra.toNat = s.pc.toNat + 2 ∧ t.memRead ((s.reg 7).toNat - 1) = some ra) ∧
      (∀ a, a ≠ (s.reg 7).toNat - 1 → t.memRead a = s.memRead a) ∧
      t.pc.toNat = (if b = 7 then s.reg 7 - 1 else s.reg ⟨b.toNat, h⟩).toNat ∧
      t.fl = s.fl ∧ t.run = s.run ∧ t.cause = s.cause ∧ t.faultInfo = s.faultInfo ∧ t.out = s.out) ∧
    (s.reg 7 = 0 → exec (.call b) s = .next (s.stopped .outOfBounds (.outOfBounds .stackLow (-1)))) ∧
    (s.reg 7 ≠ 0 → s.pc = 254 →
      exec (.call b) s = .next (s.stopped .outOfBounds (.outOfBounds .retAddr 256)))

/-- RET (R161), with `v` the byte at the stack pointer. If `x[7]` is not 255: `pc = v`, `x[7]` one higher, memory and
all else unchanged, at every `pc`. If it is 255: OutOfBounds(STACK_HIGH, 256), nothing written (D9, log entry 9). -/
def Obligations.RetPopsThePc : Prop :=
  ∀ (s : State) (v : Byte), s.memRead (s.reg 7).toNat = some v →
    (s.reg 7 ≠ 255 → ∃ t, exec .ret s = .next t ∧
      t.pc.toNat = v.toNat ∧ t.reg 7 = s.reg 7 + 1 ∧ (∀ j : RegIdx, j ≠ 7 → t.reg j = s.reg j) ∧
      (∀ a, t.memRead a = s.memRead a) ∧ t.fl = s.fl ∧ t.run = s.run ∧ t.cause = s.cause ∧
      t.faultInfo = s.faultInfo ∧ t.out = s.out) ∧
    (s.reg 7 = 255 → exec .ret s = .next (s.stopped .outOfBounds (.outOfBounds .stackHigh 256)))

/-- CMP (R170) with valid operands: `fl` becomes exactly one of EQ, GT, LT by the unsigned comparison (D13, log entry
12) of the first operand with the second, whatever it was; `pc + 3`; nothing else changed. -/
def Obligations.CmpSetsTheFlags : Prop :=
  ∀ (p q : Byte) (s : State) (hp : p.toNat < 8) (hq : q.toNat < 8), s.pc.toNat + 2 ≤ 255 →
    ∃ f : Flags, exec (.cmp p q) s = .next { s with fl := f, pc := s.pc + 3 } ∧
      (f = .eq ↔ s.reg ⟨p.toNat, hp⟩ = s.reg ⟨q.toNat, hq⟩) ∧
      (f = .gt ↔ (s.reg ⟨q.toNat, hq⟩).toNat < (s.reg ⟨p.toNat, hp⟩).toNat) ∧
      (f = .lt ↔ (s.reg ⟨p.toNat, hp⟩).toNat < (s.reg ⟨q.toNat, hq⟩).toNat)

/-- JMP (R180), whole: `pc` is the register's value and nothing else changes; OutOfBounds of a bad register index;
OutOfBounds of the operand fetch at 255. That an error writes nothing is D8 (log entry 8), its record D11 (log entry
10). -/
def Obligations.JmpJumps : Prop :=
  ∀ (b : Byte) (s : State),
    (∀ h : b.toNat < 8, s.pc.toNat + 1 ≤ 255 →
      exec (.jmp b) s = .next { s with pc := (s.reg ⟨b.toNat, h⟩).setWidth 9 }) ∧
    (8 ≤ b.toNat → s.pc.toNat + 1 ≤ 255 →
      exec (.jmp b) s = .next (s.stopped .outOfBounds (.outOfBounds .regIdx b.toNat))) ∧
    (s.pc = 255 → exec (.jmp b) s = .next (s.stopped .outOfBounds (.outOfBounds .operand 256)))

/-- JEQ (R181) and JNE (R182) with a valid operand: exactly one of the two is taken, JEQ if and only if `fl = EQ`; the
taken one sets `pc` to the register, the other goes to `pc + 2`; nothing else changes. For `fl = NONE` this is the
default `literal` of FLAGS_UNSET_READ (D5, log entry 4). -/
def Obligations.BranchesFollowTheFlags : Prop :=
  ∀ (b : Byte) (s : State) (h : b.toNat < 8), s.pc.toNat + 1 ≤ 255 →
    (s.fl = .eq →
      exec (.jeq b) s = .next { s with pc := (s.reg ⟨b.toNat, h⟩).setWidth 9 } ∧
      exec (.jne b) s = .next { s with pc := s.pc + 2 }) ∧
    (s.fl ≠ .eq →
      exec (.jeq b) s = .next { s with pc := s.pc + 2 } ∧
      exec (.jne b) s = .next { s with pc := (s.reg ⟨b.toNat, h⟩).setWidth 9 })

/-- R183, both values of FLAGS_UNSET_READ (D5, log entry 4): before any CMP, under `literal` JEQ falls through and JNE
is taken, under `fault` neither has a meaning; after one the two values agree; no other instruction takes the
parameter; and `exec` is the meaning at the default. -/
def Obligations.BranchBeforeAnyCompare : Prop :=
  (∀ (b : Byte) (s : State) (h : b.toNat < 8), s.pc.toNat + 1 ≤ 255 → s.fl = .none →
    execUnder .literal (.jeq b) s = .next { s with pc := s.pc + 2 } ∧
    execUnder .literal (.jne b) s = .next { s with pc := (s.reg ⟨b.toNat, h⟩).setWidth 9 } ∧
    execUnder .fault (.jeq b) s = .fault .flagsUnset ∧
    execUnder .fault (.jne b) s = .fault .flagsUnset) ∧
  (∀ (i : Instr) (s : State), s.fl ≠ .none → execUnder .fault i s = execUnder .literal i s) ∧
  (∀ (unset : FlagsUnsetRead) (i : Instr) (s : State), i.mnemonic ≠ .jeq → i.mnemonic ≠ .jne →
    execUnder unset i s = exec i s) ∧
  (∀ (i : Instr) (s : State), execUnder flagsUnsetRead i s = exec i s)

/-- R183 at the step (D5, log entry 4): under `fault` a step has no meaning exactly when it is a conditional branch
before any CMP, and every other step is the one of `literal`. -/
def Obligations.FaultParameterWithholdsOnlyUnsetBranches : Prop :=
  ∀ (opc : OpcodeMap) (s : State),
    (stepUnder opc .fault s = .fault .flagsUnset ↔ s.BranchesUnset opc) ∧
    (¬ s.BranchesUnset opc → stepUnder opc .fault s = stepUnder opc .literal s)

/-- R183 over a run (D5, log entry 4): a run that never comes to a conditional branch before a CMP is the same under
both values; in particular any run from a state with a comparison made; and under `fault` a run is withheld only in a
state that is about to execute such a branch. -/
def Obligations.RunsAgreeOnceCompared : Prop :=
  ∀ (opc : OpcodeMap) (n : Nat) (s : State),
    ((∀ t, Reaches opc .literal s t → ¬ t.BranchesUnset opc) → runFor opc .fault n s = runFor opc .literal n s) ∧
    (s.fl ≠ .none → runFor opc .fault n s = runFor opc .literal n s) ∧
    (runFor opc .fault n s = .fault .flagsUnset → ∃ t, Reaches opc .fault s t ∧ t.BranchesUnset opc)

/-! ## What each instruction leaves unchanged -/

/-- R24: an instruction changes no register but those its row lists as written, and the registers its row does not
list as read have no influence on anything but themselves. A branch is taken before any CMP as the default `literal`
says (D5, log entry 4). -/
def Obligations.RegistersAreAccessedAsListed : Prop :=
  (∀ (i : Instr) (s t : State) (j : RegIdx), exec i s = .next t → t.reg j ≠ s.reg j → Writes i j) ∧
  (∀ (i : Instr) (s t : State) (j : RegIdx) (v : Byte), ¬ Reads i s.fl j → exec i s = .next t →
    ∃ w, exec i (s.setReg j v) = .next (t.setReg j w))

/-- R27: the next `pc` of every instruction is the table's, and HLT and every error leave `pc` as it is (D7, log entry
7). Two clauses are the model's choice: CALL's target is the register AFTER the decrement of `x[7]` (R160; CALL R7:
D29, log entry 17), and a branch before any CMP goes as the default `literal` says (D5, log entry 4). -/
def Obligations.PcFollowsTheTable : Prop :=
  ∀ (i : Instr) (s t : State), s.run = .running → exec i s = .next t →
    (t.run = .running → NextPc i s t = some t.pc.toNat) ∧ (t.run = .halted → t.pc = s.pc)

/-- R54, the memory frame: PUSH and CALL store one byte, at the address one below the stack pointer, and every other
byte reads as before; every other instruction leaves every byte as it was. -/
def Obligations.OnlyPushAndCallStore : Prop :=
  (∀ (b : Byte) (s t : State), exec (.push b) s = .next t → ∀ a, a ≠ (s.reg 7 - 1).toNat →
    t.memRead a = s.memRead a) ∧
  (∀ (b : Byte) (s t : State), exec (.call b) s = .next t → ∀ a, a ≠ (s.reg 7 - 1).toNat →
    t.memRead a = s.memRead a) ∧
  (∀ (i : Instr) (s t : State), i.mnemonic ≠ .push → i.mnemonic ≠ .call → exec i s = .next t → ∀ a,
    t.memRead a = s.memRead a)

/-- R29 and R30: CMP is the only instruction that changes `fl`; JEQ and JNE are the only ones it has an influence on;
and no instruction tells GT from LT. -/
def Obligations.OnlyCompareWritesFlags : Prop :=
  (∀ (i : Instr) (s t : State), exec i s = .next t → t.fl ≠ s.fl → i.mnemonic = .cmp) ∧
  (∀ (i : Instr) (s t : State) (f : Flags), i.mnemonic ≠ .jeq → i.mnemonic ≠ .jne → exec i s = .next t →
    ∃ g, exec i { s with fl := f } = .next { t with fl := g }) ∧
  (∀ (i : Instr) (s t : State), s.fl = .gt → exec i s = .next t →
    ∃ g, exec i { s with fl := .lt } = .next { t with fl := g })

/-- R34, over whole steps, the fetch and the step's own errors included: a step leaves `out` as it was or is a PRN's
and appends one value, the printed register's, after the older ones; a PRN that completes does append it; nothing is
removed; and `out` is never read: from any other `out` the step answers the same but for what stands before the
appended values. That the value is the unsigned number is D18 (log entry 14), the model's choice. -/
def Obligations.OutputGrowsOnlyByPrn : Prop :=
  ∀ (opc : OpcodeMap) (unset : FlagsUnsetRead) (s : State),
    (∀ t, stepUnder opc unset s = .next t → t.out = s.out ∨
      ∃ b v, fetchInstr opc s = .ok (.prn b) ∧ s.regNamed b = some v ∧ t.out = s.out ++ [v]) ∧
    (∀ t b, stepUnder opc unset s = .next t → fetchInstr opc s = .ok (.prn b) → t.run = .running →
      ∃ v, s.regNamed b = some v ∧ t.out = s.out ++ [v]) ∧
    (∀ t o, stepUnder opc unset s = .next t → ∃ new, t.out = s.out ++ new ∧
      stepUnder opc unset { s with out := o } = .next { t with out := o ++ new }) ∧
    (∀ f o, stepUnder opc unset s = .fault f → stepUnder opc unset { s with out := o } = .fault f) ∧
    (∀ (i : Instr) (t : State), exec i s = .next t →
      t.out = s.out ∨ ∃ b v, i = .prn b ∧ s.regNamed b = some v ∧ t.out = s.out ++ [v])

/-- R32, R33 and R110: `run`, `cause` and `fault_info` change only by HLT and by an error, in every instruction. -/
def Obligations.ControlStateChangesOnlyByHaltOrError : Prop :=
  ∀ (i : Instr) (s t : State), exec i s = .next t →
    (t.run = s.run ∧ t.cause = s.cause ∧ t.faultInfo = s.faultInfo) ∨
    (i = .hlt ∧ t.run = .halted ∧ t.cause = .hlt ∧ t.faultInfo = s.faultInfo) ∨
    ∃ e : FaultInfo, t.run = .halted ∧ t.cause = e.cause ∧ t.faultInfo = some e

/-! ## Memory and the image -/

/-- The memory contract (R51, R52, R53): valid addresses are exactly 0 to 255; a write changes its cell and no other,
and nothing else of the state. -/
def Obligations.MemoryContract : Prop :=
  ∀ (s : State) (a : Nat) (v : Byte),
    (255 < a → s.memRead a = none ∧ s.memWrite a v = none) ∧
    (a ≤ 255 → (∃ x, s.memRead a = some x) ∧
      ∃ t, s.memWrite a v = some t ∧ t.memRead a = some v ∧
        (∀ b, b ≠ a → t.memRead b = s.memRead b) ∧ t = { s with mem := t.mem })

/-- R66: an image within its contract lands at addresses 0 to L-1 and changes nothing else; one outside it is refused
(D15, log entry 13). -/
def Obligations.ImageLoadDepositsTheBytes : Prop :=
  ∀ (img : List Nat) (s : State),
    (img.length ≤ 256 → (∀ n ∈ img, n ≤ 255) → ∃ t, loadImage img s = .next t ∧
      (∀ n v, img[n]? = some v → t.memRead n = some (BitVec.ofNat 8 v)) ∧
      (∀ n, img.length ≤ n → t.memRead n = s.memRead n) ∧ t = { s with mem := t.mem }) ∧
    (256 < img.length ∨ (∃ n ∈ img, 255 < n) → loadImage img s = .refused .imageOutsideContract)

/-- R64, for PUSH and for CALL: the cell the store writes holds the stored byte `v` for the very next step, wherever
it lies: whatever instruction the cells from the new `pc` on encode, with `v` in that cell and every other cell as it
was before the store, is what the next step executes, be `v` its opcode or an operand; and a `v` at the new `pc` that
is no opcode ends the run as unrecognised. PUSH R7 stores, and CALL R7 jumps to, the decremented `x[7]` (D29, log
entry 17); that no fence is needed is the spec's D22. -/
def Obligations.StoredByteIsFetchedByTheNextStep : Prop :=
  ∀ opc : OpcodeMap, opc.Lawful → ∀ (unset : FlagsUnsetRead) (b : Byte) (s : State) (h : b.toNat < 8),
    s.run = .running → s.reg 7 ≠ 0 → s.memRead (s.pc.toNat + 1) = some b →
    ∀ (v target : Byte) (next : Nat),
    target = (if b = 7 then s.reg 7 - 1 else s.reg ⟨b.toNat, h⟩) →
    (s.memRead s.pc.toNat = some (opc .push) ∧ v = target ∧ next = s.pc.toNat + 2) ∨
      (s.memRead s.pc.toNat = some (opc .call) ∧ v.toNat = s.pc.toNat + 2 ∧ next = target.toNat) →
    ∃ t, stepUnder opc unset s = .next t ∧ t.pc.toNat = next ∧
      (∀ a, t.memRead a = if a = (s.reg 7).toNat - 1 then some v else s.memRead a) ∧
      (∀ i : Instr, (∀ k x, (encodeWith opc i)[k]? = some x →
          (if next + k = (s.reg 7).toNat - 1 then some v else s.memRead (next + k)) = some x) →
        stepUnder opc unset t = execUnder unset i t) ∧
      (next = (s.reg 7).toNat - 1 → (∀ m, v ≠ opc m) →
        stepUnder opc unset t =
          .next (t.stopped .unrecognizedOpcode (.unrecognizedOpcode t.pc v)))

/-- R60 and R235: a step changes no cell below the one just under the stack pointer (an error changes none: D8, log
entry 8), so the bytes of an image of `n`
bytes stay while the stack pointer is above `n`. -/
def Obligations.StepsLeaveTheCellsBelowTheStack : Prop :=
  ∀ (opc : OpcodeMap) (unset : FlagsUnsetRead) (s t : State) (n : Nat), stepUnder opc unset s = .next t →
    n + 1 ≤ (s.reg 7).toNat →
    ∀ a, a < n → t.memRead a = s.memRead a

/-! ## Laws over several steps -/

/-- R153, the round-trip law: a PUSH and the POP of the same register after it, both fetched from memory, with the
PUSH's cell not one of the POP's own two: every register, the stack pointer included, is back at its value, the cell
holds the pushed value, every other cell and all else is unchanged, and `pc` is past both. PUSH R7 and POP R7 are
included (D29, log entry 17). -/
def Obligations.PushThenPopRestores : Prop :=
  ∀ opc : OpcodeMap, opc.Lawful → ∀ (unset : FlagsUnsetRead) (b : Byte) (s : State) (h : b.toNat < 8),
    s.run = .running → s.pc.toNat + 3 ≤ 255 → s.reg 7 ≠ 0 →
    s.memRead s.pc.toNat = some (opc .push) → s.memRead (s.pc.toNat + 1) = some b →
    s.memRead (s.pc.toNat + 2) = some (opc .pop) → s.memRead (s.pc.toNat + 3) = some b →
    (s.reg 7).toNat - 1 ≠ s.pc.toNat + 2 → (s.reg 7).toNat - 1 ≠ s.pc.toNat + 3 →
    ∃ t u, stepUnder opc unset s = .next t ∧ stepUnder opc unset t = .next u ∧
      (∀ j : RegIdx, u.reg j = s.reg j) ∧
      u.memRead ((s.reg 7).toNat - 1) = some (if b = 7 then s.reg 7 - 1 else s.reg ⟨b.toNat, h⟩) ∧
      (∀ a, a ≠ (s.reg 7).toNat - 1 → u.memRead a = s.memRead a) ∧
      u.pc.toNat = s.pc.toNat + 4 ∧ u.fl = s.fl ∧ u.run = .running ∧ u.cause = s.cause ∧
      u.faultInfo = s.faultInfo ∧ u.out = s.out

/-- R162, the return-address law: after a CALL at `c`, a RET in any state whose stack pointer is where the CALL left
it and whose cell there still holds what the CALL wrote resumes at `c + 2` with the stack pointer back at its value
before the CALL. -/
def Obligations.CallThenRetReturns : Prop :=
  ∀ (b : Byte) (s : State), b.toNat < 8 → s.pc.toNat ≤ 253 → s.reg 7 ≠ 0 →
    ∃ t, exec (.call b) s = .next t ∧ t.reg 7 = s.reg 7 - 1 ∧
      ∀ u : State, u.reg 7 = t.reg 7 → u.memRead ((s.reg 7).toNat - 1) = t.memRead ((s.reg 7).toNat - 1) →
        ∃ w, exec .ret u = .next w ∧ w.pc.toNat = s.pc.toNat + 2 ∧ w.reg 7 = s.reg 7

/-- R29: once a comparison has been made, `fl` holds one of its three results for the rest of the run. That "none yet"
is a value of its own is D5 (log entry 4). -/
def Obligations.FlagsStaySetOnceCompared : Prop :=
  ∀ (opc : OpcodeMap) (unset : FlagsUnsetRead) (s t : State), Reaches opc unset s t → s.fl ≠ .none → t.fl ≠ .none

/-- R32, R33 and R34: `cause`, `fault_info` and `out` never influence the run: two states that agree on all else have
next states that agree on all else. -/
def Obligations.DiagnosticsAndOutputAreNeverRead : Prop :=
  ∀ (opc : OpcodeMap) (unset : FlagsUnsetRead) (s s' t : State), s.SameCore s' →
    stepUnder opc unset s = .next t →
    ∃ t', stepUnder opc unset s' = .next t' ∧ t.SameCore t'

/-! ## The invariant -/

/-- The invariant holds after reset, for every SP_INIT (R26, R32, R33, R37). Its canonical form of memory is the model's
(log entry 25), its bound on `pc` D10 (log entry 6). -/
def Obligations.InvariantHoldsAtReset : Prop := ∀ sp : Byte, (State.resetWith sp).Inv

/-- Every step keeps the invariant, under any opcode map and value of FLAGS_UNSET_READ: memory's canonical form (the
model's, log entry 25), `pc` at most 256 (R26, R28; D10, log entry 6), `run` halted exactly with a cause (R32),
`fault_info` present exactly with an error's cause and of that cause (R33). -/
def Obligations.StepKeepsTheInvariant : Prop :=
  ∀ (opc : OpcodeMap) (unset : FlagsUnsetRead) (s t : State), s.Inv → stepUnder opc unset s = .next t → t.Inv

/-- Every state of every run, from reset and any image, meets the invariant (R115, R230): memory's canonical form (the
model's, log entry 25), `pc` at most 256 (D10, log entry 6), and the rest of `State.Inv`. -/
def Obligations.EveryRunKeepsTheInvariant : Prop :=
  ∀ (opc : OpcodeMap) (unset : FlagsUnsetRead) (sp : Byte) (img : List Nat) (s t : State),
    launch sp img = .next s → Reaches opc unset s t → t.Inv
end

