-- ==== Sys2Proof/Laws/Decode.lean ====
section
/-! SUPPORT. Small lemmas of the decoder and the encoder. -/

namespace Sys2Proof

theorem Mnemonic.mem_all (m : Mnemonic) : m ∈ Mnemonic.all := by cases m <;> decide

theorem OpcodeMap.lawful_default : OpcodeMap.Lawful defaultOpc := by
  intro m n; cases m <;> cases n <;> decide

/-- A decoded opcode is the byte the map gives its mnemonic. -/
theorem decodeOpcode_some {opc : OpcodeMap} {b : Byte} {m : Mnemonic} (h : decodeOpcode opc b = some m) :
    opc m = b := by
  simpa using List.find?_some h

@[simp] theorem decodeWith_nil (opc : OpcodeMap) : decodeWith opc [] = .noBytes := rfl

theorem decodeWith_cons_none {opc : OpcodeMap} {b : Byte} (h : decodeOpcode opc b = none) (rest : List Byte) :
    decodeWith opc (b :: rest) = .unrecognized b := by simp [decodeWith, h]

theorem decodeWith_cons_some {opc : OpcodeMap} {b : Byte} {m : Mnemonic} (h : decodeOpcode opc b = some m)
    (rest : List Byte) : decodeWith opc (b :: rest) = decodeOperands m rest := by simp [decodeWith, h]

end Sys2Proof
end

