-- ==== Sys2Proof/Laws/State.lean ====
section
/-! SUPPORT. One lemma per field per update of the state, each true by rfl, so that no later proof unfolds a
record update; then the registers and memory reads of each update. -/

namespace Sys2Proof.Machine

variable (s : State)

/-! ### setCell -/

@[simp] theorem State.setCell_mem (a : Nat) (v : Byte) : (s.setCell a v).mem = Memory.set s.mem a v := rfl
@[simp] theorem State.setCell_regs (a : Nat) (v : Byte) : (s.setCell a v).regs = s.regs := rfl
@[simp] theorem State.setCell_pc (a : Nat) (v : Byte) : (s.setCell a v).pc = s.pc := rfl
@[simp] theorem State.setCell_fl (a : Nat) (v : Byte) : (s.setCell a v).fl = s.fl := rfl
@[simp] theorem State.setCell_run (a : Nat) (v : Byte) : (s.setCell a v).run = s.run := rfl
@[simp] theorem State.setCell_cause (a : Nat) (v : Byte) : (s.setCell a v).cause = s.cause := rfl
@[simp] theorem State.setCell_faultInfo (a : Nat) (v : Byte) : (s.setCell a v).faultInfo = s.faultInfo := rfl
@[simp] theorem State.setCell_out (a : Nat) (v : Byte) : (s.setCell a v).out = s.out := rfl
@[simp] theorem State.setCell_reg (a : Nat) (v : Byte) (j : RegIdx) : (s.setCell a v).reg j = s.reg j := rfl

/-! ### storeByte -/

@[simp] theorem State.storeByte_mem (a v : Byte) : (s.storeByte a v).mem = Memory.set s.mem a.toNat v := rfl
@[simp] theorem State.storeByte_regs (a v : Byte) : (s.storeByte a v).regs = s.regs := rfl
@[simp] theorem State.storeByte_pc (a v : Byte) : (s.storeByte a v).pc = s.pc := rfl
@[simp] theorem State.storeByte_fl (a v : Byte) : (s.storeByte a v).fl = s.fl := rfl
@[simp] theorem State.storeByte_run (a v : Byte) : (s.storeByte a v).run = s.run := rfl
@[simp] theorem State.storeByte_cause (a v : Byte) : (s.storeByte a v).cause = s.cause := rfl
@[simp] theorem State.storeByte_faultInfo (a v : Byte) : (s.storeByte a v).faultInfo = s.faultInfo := rfl
@[simp] theorem State.storeByte_out (a v : Byte) : (s.storeByte a v).out = s.out := rfl
@[simp] theorem State.storeByte_reg (a v : Byte) (j : RegIdx) : (s.storeByte a v).reg j = s.reg j := rfl

/-! ### setReg -/

@[simp] theorem State.setReg_mem (i : RegIdx) (v : Byte) : (s.setReg i v).mem = s.mem := rfl
@[simp] theorem State.setReg_regs (i : RegIdx) (v : Byte) : (s.setReg i v).regs = s.regs.set i v := rfl
@[simp] theorem State.setReg_pc (i : RegIdx) (v : Byte) : (s.setReg i v).pc = s.pc := rfl
@[simp] theorem State.setReg_fl (i : RegIdx) (v : Byte) : (s.setReg i v).fl = s.fl := rfl
@[simp] theorem State.setReg_run (i : RegIdx) (v : Byte) : (s.setReg i v).run = s.run := rfl
@[simp] theorem State.setReg_cause (i : RegIdx) (v : Byte) : (s.setReg i v).cause = s.cause := rfl
@[simp] theorem State.setReg_faultInfo (i : RegIdx) (v : Byte) : (s.setReg i v).faultInfo = s.faultInfo := rfl
@[simp] theorem State.setReg_out (i : RegIdx) (v : Byte) : (s.setReg i v).out = s.out := rfl
@[simp] theorem State.setReg_memRead (i : RegIdx) (v : Byte) (n : Nat) : (s.setReg i v).memRead n = s.memRead n := rfl
@[simp] theorem State.setReg_loadByte (i : RegIdx) (v : Byte) (n : Byte) : (s.setReg i v).loadByte n = s.loadByte n := rfl

/-! ### setPc -/

@[simp] theorem State.setPc_mem (t : PcWord) : (s.setPc t).mem = s.mem := rfl
@[simp] theorem State.setPc_regs (t : PcWord) : (s.setPc t).regs = s.regs := rfl
@[simp] theorem State.setPc_pc (t : PcWord) : (s.setPc t).pc = t := rfl
@[simp] theorem State.setPc_fl (t : PcWord) : (s.setPc t).fl = s.fl := rfl
@[simp] theorem State.setPc_run (t : PcWord) : (s.setPc t).run = s.run := rfl
@[simp] theorem State.setPc_cause (t : PcWord) : (s.setPc t).cause = s.cause := rfl
@[simp] theorem State.setPc_faultInfo (t : PcWord) : (s.setPc t).faultInfo = s.faultInfo := rfl
@[simp] theorem State.setPc_out (t : PcWord) : (s.setPc t).out = s.out := rfl
@[simp] theorem State.setPc_reg (t : PcWord) (j : RegIdx) : (s.setPc t).reg j = s.reg j := rfl
@[simp] theorem State.setPc_memRead (t : PcWord) (n : Nat) : (s.setPc t).memRead n = s.memRead n := rfl
@[simp] theorem State.setPc_loadByte (t : PcWord) (n : Byte) : (s.setPc t).loadByte n = s.loadByte n := rfl

/-! ### advance -/

@[simp] theorem State.advance_mem (n : PcWord) : (s.advance n).mem = s.mem := rfl
@[simp] theorem State.advance_regs (n : PcWord) : (s.advance n).regs = s.regs := rfl
@[simp] theorem State.advance_pc (n : PcWord) : (s.advance n).pc = s.pc + n := rfl
@[simp] theorem State.advance_fl (n : PcWord) : (s.advance n).fl = s.fl := rfl
@[simp] theorem State.advance_run (n : PcWord) : (s.advance n).run = s.run := rfl
@[simp] theorem State.advance_cause (n : PcWord) : (s.advance n).cause = s.cause := rfl
@[simp] theorem State.advance_faultInfo (n : PcWord) : (s.advance n).faultInfo = s.faultInfo := rfl
@[simp] theorem State.advance_out (n : PcWord) : (s.advance n).out = s.out := rfl
@[simp] theorem State.advance_reg (n : PcWord) (j : RegIdx) : (s.advance n).reg j = s.reg j := rfl
@[simp] theorem State.advance_memRead (n : PcWord) (a : Nat) : (s.advance n).memRead a = s.memRead a := rfl
@[simp] theorem State.advance_loadByte (n : PcWord) (a : Byte) : (s.advance n).loadByte a = s.loadByte a := rfl

/-! ### jumpTo -/

@[simp] theorem State.jumpTo_mem (v : Byte) : (s.jumpTo v).mem = s.mem := rfl
@[simp] theorem State.jumpTo_regs (v : Byte) : (s.jumpTo v).regs = s.regs := rfl
@[simp] theorem State.jumpTo_pc (v : Byte) : (s.jumpTo v).pc = v.setWidth 9 := rfl
@[simp] theorem State.jumpTo_fl (v : Byte) : (s.jumpTo v).fl = s.fl := rfl
@[simp] theorem State.jumpTo_run (v : Byte) : (s.jumpTo v).run = s.run := rfl
@[simp] theorem State.jumpTo_cause (v : Byte) : (s.jumpTo v).cause = s.cause := rfl
@[simp] theorem State.jumpTo_faultInfo (v : Byte) : (s.jumpTo v).faultInfo = s.faultInfo := rfl
@[simp] theorem State.jumpTo_out (v : Byte) : (s.jumpTo v).out = s.out := rfl
@[simp] theorem State.jumpTo_reg (v : Byte) (j : RegIdx) : (s.jumpTo v).reg j = s.reg j := rfl
@[simp] theorem State.jumpTo_memRead (v : Byte) (n : Nat) : (s.jumpTo v).memRead n = s.memRead n := rfl
@[simp] theorem State.jumpTo_loadByte (v : Byte) (n : Byte) : (s.jumpTo v).loadByte n = s.loadByte n := rfl

/-! ### setFl -/

@[simp] theorem State.setFl_mem (f : Flags) : (s.setFl f).mem = s.mem := rfl
@[simp] theorem State.setFl_regs (f : Flags) : (s.setFl f).regs = s.regs := rfl
@[simp] theorem State.setFl_pc (f : Flags) : (s.setFl f).pc = s.pc := rfl
@[simp] theorem State.setFl_fl (f : Flags) : (s.setFl f).fl = f := rfl
@[simp] theorem State.setFl_run (f : Flags) : (s.setFl f).run = s.run := rfl
@[simp] theorem State.setFl_cause (f : Flags) : (s.setFl f).cause = s.cause := rfl
@[simp] theorem State.setFl_faultInfo (f : Flags) : (s.setFl f).faultInfo = s.faultInfo := rfl
@[simp] theorem State.setFl_out (f : Flags) : (s.setFl f).out = s.out := rfl
@[simp] theorem State.setFl_reg (f : Flags) (j : RegIdx) : (s.setFl f).reg j = s.reg j := rfl
@[simp] theorem State.setFl_memRead (f : Flags) (n : Nat) : (s.setFl f).memRead n = s.memRead n := rfl
@[simp] theorem State.setFl_loadByte (f : Flags) (n : Byte) : (s.setFl f).loadByte n = s.loadByte n := rfl

/-! ### emit -/

@[simp] theorem State.emit_mem (v : Byte) : (s.emit v).mem = s.mem := rfl
@[simp] theorem State.emit_regs (v : Byte) : (s.emit v).regs = s.regs := rfl
@[simp] theorem State.emit_pc (v : Byte) : (s.emit v).pc = s.pc := rfl
@[simp] theorem State.emit_fl (v : Byte) : (s.emit v).fl = s.fl := rfl
@[simp] theorem State.emit_run (v : Byte) : (s.emit v).run = s.run := rfl
@[simp] theorem State.emit_cause (v : Byte) : (s.emit v).cause = s.cause := rfl
@[simp] theorem State.emit_faultInfo (v : Byte) : (s.emit v).faultInfo = s.faultInfo := rfl
@[simp] theorem State.emit_out (v : Byte) : (s.emit v).out = s.out ++ [v] := rfl
@[simp] theorem State.emit_reg (v : Byte) (j : RegIdx) : (s.emit v).reg j = s.reg j := rfl
@[simp] theorem State.emit_memRead (v : Byte) (n : Nat) : (s.emit v).memRead n = s.memRead n := rfl
@[simp] theorem State.emit_loadByte (v : Byte) (n : Byte) : (s.emit v).loadByte n = s.loadByte n := rfl

/-! ### raise -/

@[simp] theorem State.raise_mem (e : FaultInfo) : (s.raise e).mem = s.mem := rfl
@[simp] theorem State.raise_regs (e : FaultInfo) : (s.raise e).regs = s.regs := rfl
@[simp] theorem State.raise_pc (e : FaultInfo) : (s.raise e).pc = s.pc := rfl
@[simp] theorem State.raise_fl (e : FaultInfo) : (s.raise e).fl = s.fl := rfl
@[simp] theorem State.raise_run (e : FaultInfo) : (s.raise e).run = .halted := rfl
@[simp] theorem State.raise_cause (e : FaultInfo) : (s.raise e).cause = e.cause := rfl
@[simp] theorem State.raise_faultInfo (e : FaultInfo) : (s.raise e).faultInfo = some e := rfl
@[simp] theorem State.raise_out (e : FaultInfo) : (s.raise e).out = s.out := rfl
@[simp] theorem State.raise_reg (e : FaultInfo) (j : RegIdx) : (s.raise e).reg j = s.reg j := rfl
@[simp] theorem State.raise_memRead (e : FaultInfo) (n : Nat) : (s.raise e).memRead n = s.memRead n := rfl
@[simp] theorem State.raise_loadByte (e : FaultInfo) (n : Byte) : (s.raise e).loadByte n = s.loadByte n := rfl

/-! ### haltNormally -/

@[simp] theorem State.haltNormally_mem : (s.haltNormally).mem = s.mem := rfl
@[simp] theorem State.haltNormally_regs : (s.haltNormally).regs = s.regs := rfl
@[simp] theorem State.haltNormally_pc : (s.haltNormally).pc = s.pc := rfl
@[simp] theorem State.haltNormally_fl : (s.haltNormally).fl = s.fl := rfl
@[simp] theorem State.haltNormally_run : (s.haltNormally).run = .halted := rfl
@[simp] theorem State.haltNormally_cause : (s.haltNormally).cause = .hlt := rfl
@[simp] theorem State.haltNormally_faultInfo : (s.haltNormally).faultInfo = s.faultInfo := rfl
@[simp] theorem State.haltNormally_out : (s.haltNormally).out = s.out := rfl
@[simp] theorem State.haltNormally_reg (j : RegIdx) : (s.haltNormally).reg j = s.reg j := rfl
@[simp] theorem State.haltNormally_memRead (n : Nat) : (s.haltNormally).memRead n = s.memRead n := rfl
@[simp] theorem State.haltNormally_loadByte (n : Byte) : (s.haltNormally).loadByte n = s.loadByte n := rfl

/-! ### Reading a register after a register write -/

@[simp] theorem State.setReg_reg_self (i : RegIdx) (v : Byte) : (s.setReg i v).reg i = v := by
  simp [State.reg, State.setReg]

theorem State.setReg_reg_of_ne {i j : RegIdx} (h : j ≠ i) (v : Byte) : (s.setReg i v).reg j = s.reg j := by
  have h' : i.val ≠ j.val := fun e => h (Fin.ext e.symm)
  simp [State.reg, State.setReg, h']

/-- Reading a register after a register write: the written one has the new value, the others their old ones. -/
theorem State.setReg_reg (i j : RegIdx) (v : Byte) :
    (s.setReg i v).reg j = if j = i then v else s.reg j := by
  by_cases h : j = i
  · subst h; simp
  · simp [State.setReg_reg_of_ne s h, h]


end Sys2Proof.Machine
end

