-- ==== Sys2Proof/Laws/Memory.lean ====
section
/-! SUPPORT. The laws of memory: what a read gives after a write, and that every memory operation keeps the
canonical form `Memory.wf`. -/

namespace Sys2Proof.Machine

/-! ### Reading -/

@[simp] theorem Memory.get_nil (a : Nat) : Memory.get [] a = 0 := rfl

theorem Memory.get_erase (m : Memory) (a b : Nat) :
    Memory.get (Memory.erase m a) b = if b = a then 0 else Memory.get m b := by
  induction m with
  | nil => simp [Memory.erase]
  | cons c m ih =>
    by_cases hc : c.1 = a
    · rw [Memory.erase, if_pos hc, ih, Memory.get, hc]
      by_cases hb : b = a
      · simp [hb]
      · simp [hb, Ne.symm hb]
    · rw [Memory.erase, if_neg hc, Memory.get, Memory.get, ih]
      by_cases hb : c.1 = b
      · simp [hb, show ¬ b = a from fun e => hc (hb.trans e)]
      · simp [hb]

theorem Memory.get_insert (m : Memory) (a b : Nat) (v : Byte) (ha : Memory.get m a = 0)
    (hm : ∀ c ∈ m, c.1 ≠ a) :
    Memory.get (Memory.insert m a v) b = if b = a then v else Memory.get m b := by
  induction m with
  | nil => simp [Memory.insert, Memory.get, eq_comm]
  | cons c m ih =>
    have hca : c.1 ≠ a := hm c (by simp)
    have ha' : Memory.get m a = 0 := by simpa [Memory.get, hca] using ha
    have ih' := ih ha' (fun d hd => hm d (by simp [hd]))
    by_cases hlt : a < c.1
    · simp [Memory.insert, hlt, Memory.get, eq_comm]
    · by_cases hb : c.1 = b
      · rw [Memory.insert, if_neg hlt, Memory.get, Memory.get]
        simp [hb, show ¬ b = a from fun e => hca (hb.trans e)]
      · rw [Memory.insert, if_neg hlt, Memory.get, Memory.get]
        simp [hb, ih']

theorem Memory.erase_no_key (m : Memory) (a : Nat) : ∀ c ∈ Memory.erase m a, c.1 ≠ a := by
  induction m with
  | nil => simp [Memory.erase]
  | cons c m ih =>
    by_cases hc : c.1 = a
    · simpa [Memory.erase, hc] using ih
    · intro d hd
      rcases List.mem_cons.1 (by simpa [Memory.erase, hc] using hd) with rfl | h
      · exact hc
      · exact ih d h

/-- Reading a cell after a write: the written one holds the new value, every other its old one. -/
theorem Memory.get_set (m : Memory) (a b : Nat) (v : Byte) :
    Memory.get (Memory.set m a v) b = if b = a then v else Memory.get m b := by
  by_cases hv : v = 0
  · simp [Memory.set, hv, Memory.get_erase]
  · have h0 : Memory.get (Memory.erase m a) a = 0 := by simp [Memory.get_erase]
    rw [Memory.set, if_neg hv, Memory.get_insert _ _ _ _ h0 (Memory.erase_no_key m a), Memory.get_erase]
    by_cases hb : b = a <;> simp [hb]

/-! ### The canonical form -/

theorem Memory.wf_nil : Memory.wf [] := by simp [Memory.wf]

theorem Memory.erase_subset (m : Memory) (a : Nat) : ∀ c ∈ Memory.erase m a, c ∈ m := by
  induction m with
  | nil => simp [Memory.erase]
  | cons c m ih =>
    intro d hd
    by_cases hc : c.1 = a
    · exact List.mem_cons_of_mem _ (ih d (by simpa [Memory.erase, hc] using hd))
    · rcases List.mem_cons.1 (by simpa [Memory.erase, hc] using hd) with rfl | h
      · simp
      · exact List.mem_cons_of_mem _ (ih d h)

theorem Memory.wf_erase {m : Memory} (h : Memory.wf m) (a : Nat) : Memory.wf (Memory.erase m a) := by
  refine ⟨?_, fun c hc => h.2 c (Memory.erase_subset m a c hc)⟩
  have hs := h.1
  clear h
  induction m with
  | nil => simp [Memory.erase]
  | cons c m ih =>
    rw [List.pairwise_cons] at hs
    by_cases hc : c.1 = a
    · simpa [Memory.erase, hc] using ih hs.2
    · simp only [Memory.erase, hc, if_false, List.pairwise_cons]
      exact ⟨fun d hd => hs.1 d (Memory.erase_subset m a d hd), ih hs.2⟩

theorem Memory.mem_insert (m : Memory) (a : Nat) (v : Byte) :
    ∀ c ∈ Memory.insert m a v, c = (a, v) ∨ c ∈ m := by
  induction m with
  | nil => simp [Memory.insert]
  | cons c m ih =>
    intro d hd
    by_cases hlt : a < c.1
    · simpa [Memory.insert, hlt] using hd
    · rcases List.mem_cons.1 (by simpa [Memory.insert, hlt] using hd) with rfl | h
      · simp
      · rcases ih d h with e | e
        · exact .inl e
        · exact .inr (List.mem_cons_of_mem _ e)

theorem Memory.wf_insert {m : Memory} (h : Memory.wf m) {a : Nat} {v : Byte} (ha : a < 256) (hv : v ≠ 0)
    (hm : ∀ c ∈ m, c.1 ≠ a) : Memory.wf (Memory.insert m a v) := by
  refine ⟨?_, fun c hc => ?_⟩
  · have hs := h.1
    clear h
    induction m with
    | nil => simp [Memory.insert]
    | cons c m ih =>
      have hca : c.1 ≠ a := hm c (by simp)
      rw [List.pairwise_cons] at hs
      by_cases hlt : a < c.1
      · simp only [Memory.insert, hlt, if_true, List.pairwise_cons]
        refine ⟨fun d hd => ?_, hs⟩
        rcases List.mem_cons.1 hd with rfl | hd
        · exact hlt
        · exact lt_trans hlt (hs.1 d hd)
      · simp only [Memory.insert, hlt, if_false, List.pairwise_cons]
        refine ⟨fun d hd => ?_, ih (fun d hd => hm d (by simp [hd])) hs.2⟩
        rcases Memory.mem_insert m a v d hd with rfl | hd
        · exact lt_of_le_of_ne (not_lt.1 hlt) hca
        · exact hs.1 d hd
  · rcases Memory.mem_insert m a v c hc with rfl | hc
    · exact ⟨ha, hv⟩
    · exact h.2 c hc

/-- Writing a cell at a valid address keeps the canonical form. -/
theorem Memory.wf_set {m : Memory} (h : Memory.wf m) {a : Nat} (ha : a < 256) (v : Byte) :
    Memory.wf (Memory.set m a v) := by
  by_cases hv : v = 0
  · simpa [Memory.set, hv] using Memory.wf_erase h a
  · rw [Memory.set, if_neg hv]
    exact Memory.wf_insert (Memory.wf_erase h a) ha hv (Memory.erase_no_key m a)

/-! ### The memory contract on the state -/

variable (s : State)

theorem State.memRead_eq_none_iff (a : Nat) : s.memRead a = none ↔ 256 ≤ a := by
  simp [State.memRead]

/-- A read after a cell write, at any natural-number address. -/
theorem State.memRead_setCell {a : Nat} (v : Byte) (ha : a < 256) (b : Nat) :
    (s.setCell a v).memRead b = if b = a then some v else s.memRead b := by
  by_cases hb : b = a
  · subst hb; simp [State.memRead, ha, Memory.get_set]
  · by_cases hb' : b < 256 <;> simp [State.memRead, hb, hb', Memory.get_set]

/-- The stack's write and read are the memory contract's, which never refuses an 8-bit address (R52, R53). -/
theorem State.memWrite_byte (a v : Byte) : s.memWrite a.toNat v = some (s.storeByte a v) := by
  have : a.toNat < 256 := a.isLt
  simp [State.memWrite, State.storeByte, this]

theorem State.memRead_byte (a : Byte) : s.memRead a.toNat = some (s.loadByte a) := by
  have : a.toNat < 256 := a.isLt
  simp [State.memRead, State.loadByte, this]

theorem State.memRead_storeByte (a v : Byte) (b : Nat) :
    (s.storeByte a v).memRead b = if b = a.toNat then some v else s.memRead b :=
  State.memRead_setCell s v a.isLt b

theorem State.wf_storeByte {s : State} (h : Memory.wf s.mem) (a v : Byte) : Memory.wf (s.storeByte a v).mem :=
  Memory.wf_set h a.isLt v

theorem State.wf_memWrite {s t : State} (h : Memory.wf s.mem) {a : Nat} {v : Byte} (ht : s.memWrite a v = some t) :
    Memory.wf t.mem := by
  by_cases ha : a < 256
  · simp only [State.memWrite, ha, if_true, Option.some.injEq] at ht
    subst ht
    exact Memory.wf_set h ha v
  · simp [State.memWrite, ha] at ht

theorem State.wf_storeBytes {s : State} (h : Memory.wf s.mem) (a : Nat) (bs : List Byte) :
    Memory.wf (s.storeBytes a bs).mem := by
  induction bs generalizing s a with
  | nil => exact h
  | cons b bs ih =>
    rw [State.storeBytes]
    apply ih
    cases hw : s.memWrite a b with
    | none => exact h
    | some t => exact State.wf_memWrite h hw

/-- Reset's memory has the canonical form. -/
theorem State.reset_wf : Memory.wf State.reset.mem := Memory.wf_nil

end Sys2Proof.Machine
end

