-- ==== Sys2Proof/Laws/Ops.lean ====
section
/-! SUPPORT. For each shared operation of the meanings: its equation where its check passes and where it fails,
and one lemma that says everything it can do when it answers a next state. -/

namespace Sys2Proof.Machine

variable {s t : State}

/-! ### Register operands (R25) -/

theorem regIdx_of_lt {b : Byte} (h : b.toNat < 8) : regIdx b = some ⟨b.toNat, h⟩ := dif_pos h

theorem regIdx_of_ge {b : Byte} (h : 8 ≤ b.toNat) : regIdx b = none := dif_neg (not_lt.2 h)

theorem withReg_of_lt {b : Byte} (h : b.toNat < 8) (k : RegIdx → Result) :
    withReg b s k = k ⟨b.toNat, h⟩ := by
  simp [withReg, regIdx_of_lt h]

theorem withReg_of_ge {b : Byte} (h : 8 ≤ b.toNat) (k : RegIdx → Result) :
    withReg b s k = .next (s.raise (.outOfBounds .regIdx b.toNat)) := by
  simp [withReg, regIdx_of_ge h]

theorem withReg_next {b : Byte} {k : RegIdx → Result} (h : withReg b s k = .next t) :
    (∃ hb : b.toNat < 8, k ⟨b.toNat, hb⟩ = .next t) ∨
      (8 ≤ b.toNat ∧ t = s.raise (.outOfBounds .regIdx b.toNat)) := by
  by_cases hb : b.toNat < 8
  · exact .inl ⟨hb, by rwa [withReg_of_lt hb] at h⟩
  · rw [withReg_of_ge (not_lt.1 hb)] at h
    exact .inr ⟨not_lt.1 hb, by cases h; rfl⟩

/-! ### Operand fetches (R28) -/

theorem withOperandBytes_of_lt {n : Nat} (h : s.pc.toNat + n < 256) (k : Result) :
    withOperandBytes n s k = k := if_pos h

theorem withOperandBytes_of_ge {n : Nat} (h : 256 ≤ s.pc.toNat + n) (k : Result) :
    withOperandBytes n s k =
      .next (s.raise (.outOfBounds .operand (max (s.pc.toNat + 1) 256 : Nat))) := if_neg (not_lt.2 h)

theorem withOperandBytes_next {n : Nat} {k : Result} (h : withOperandBytes n s k = .next t) :
    (s.pc.toNat + n < 256 ∧ k = .next t) ∨
      (256 ≤ s.pc.toNat + n ∧ t = s.raise (.outOfBounds .operand (max (s.pc.toNat + 1) 256 : Nat))) := by
  by_cases hp : s.pc.toNat + n < 256
  · exact .inl ⟨hp, by rwa [withOperandBytes_of_lt hp] at h⟩
  · rw [withOperandBytes_of_ge (not_lt.1 hp)] at h
    exact .inr ⟨not_lt.1 hp, by cases h; rfl⟩

/-! ### The stack pointer's moves (R150, R151) -/

theorem decSp_of_ne (h : s.sp ≠ 0) (k : State → Result) : decSp s k = k (s.setSp (s.sp - 1)) := if_neg h

theorem decSp_of_eq (h : s.sp = 0) (k : State → Result) :
    decSp s k = .next (s.raise (.outOfBounds .stackLow (-1))) := if_pos h

theorem decSp_next {k : State → Result} (h : decSp s k = .next t) :
    (s.sp ≠ 0 ∧ k (s.setSp (s.sp - 1)) = .next t) ∨ (s.sp = 0 ∧ t = s.raise (.outOfBounds .stackLow (-1))) := by
  by_cases hs : s.sp = 0
  · rw [decSp_of_eq hs] at h
    exact .inr ⟨hs, by cases h; rfl⟩
  · exact .inl ⟨hs, by rwa [decSp_of_ne hs] at h⟩

theorem incSp_of_ne {s' : State} (h : s'.sp ≠ 255) (k : State → Result) :
    incSp s s' k = k (s'.setSp (s'.sp + 1)) := if_neg h

theorem incSp_of_eq {s' : State} (h : s'.sp = 255) (k : State → Result) :
    incSp s s' k = .next (s.raise (.outOfBounds .stackHigh 256)) := if_pos h

theorem incSp_next {s' : State} {k : State → Result} (h : incSp s s' k = .next t) :
    (s'.sp ≠ 255 ∧ k (s'.setSp (s'.sp + 1)) = .next t) ∨
      (s'.sp = 255 ∧ t = s.raise (.outOfBounds .stackHigh 256)) := by
  by_cases hs : s'.sp = 255
  · rw [incSp_of_eq hs] at h
    exact .inr ⟨hs, by cases h; rfl⟩
  · exact .inl ⟨hs, by rwa [incSp_of_ne hs] at h⟩

/-- The decrement as arithmetic on numbers: no borrow, since 0 has been refused. -/
theorem toNat_sub_one {x : Byte} (h : x ≠ 0) : (x - 1).toNat = x.toNat - 1 := by bv_omega

/-- The increment as arithmetic on numbers: no carry, since 255 has been refused. -/
theorem toNat_add_one {x : Byte} (h : x ≠ 255) : (x + 1).toNat = x.toNat + 1 := by bv_omega

/-! ### The program counter's two moves (R27, R28, R184) -/

/-- The sequential advance does not wrap from an instruction whose bytes all exist. -/
theorem advance_pc_toNat {n : PcWord} (h : s.pc.toNat + n.toNat ≤ 256) :
    (s.advance n).pc.toNat = s.pc.toNat + n.toNat := by
  rw [State.advance_pc, BitVec.toNat_add, Nat.mod_eq_of_lt (lt_of_le_of_lt h (by decide))]

/-- A transfer's target is its 8-bit value. -/
theorem jumpTo_pc_toNat (v : Byte) : (s.jumpTo v).pc.toNat = v.toNat := by
  have := v.isLt
  simp only [State.jumpTo_pc, BitVec.toNat_setWidth]
  omega

/-! ### The arithmetic unit (R116) and the conditional branch (R181, R182) -/

@[simp] theorem aluResult_add (x y : Byte) : aluResult .add x y = some (x + y) := by
  simp [aluResult, BitVec.ofNat_add]

@[simp] theorem aluResult_mul (x y : Byte) : aluResult .mul x y = some (x * y) := by
  simp [aluResult, BitVec.ofNat_mul]

@[simp] theorem aluResult_other (c : Nat) (x y : Byte) : aluResult (.other c) x y = none := rfl

theorem execAlu_next {sel : AluSelector} {p q : Byte} (h : execAlu sel p q s = .next t) :
    (∃ a b v, regIdx p = some a ∧ regIdx q = some b ∧ s.pc.toNat + 2 < 256 ∧
      aluResult sel (s.reg a) (s.reg b) = some v ∧ t = (s.setReg a v).advance 3) ∨
    ∃ e, t = s.raise e := by
  rcases withOperandBytes_next h with ⟨hp, h⟩ | ⟨-, h⟩
  · rcases withReg_next h with ⟨ha, h⟩ | ⟨-, h⟩
    · rcases withReg_next h with ⟨hb, h⟩ | ⟨-, h⟩
      · cases hv : aluResult sel (s.reg ⟨p.toNat, ha⟩) (s.reg ⟨q.toNat, hb⟩) with
        | none =>
          simp only [hv, Host.Outcome.next.injEq] at h
          exact .inr ⟨_, h.symm⟩
        | some v =>
          simp only [hv, Host.Outcome.next.injEq] at h
          exact .inl ⟨_, _, v, regIdx_of_lt ha, regIdx_of_lt hb, hp, hv, h.symm⟩
      · exact .inr ⟨_, h⟩
    · exact .inr ⟨_, h⟩
  · exact .inr ⟨_, h⟩

theorem condBranch_next {unset : FlagsUnsetRead} {taken : Flags → Bool} {b : Byte}
    (h : condBranch unset taken b s = .next t) :
    (∃ r, regIdx b = some r ∧ s.pc.toNat + 1 < 256 ∧
      ((taken s.fl = true ∧ t = s.jumpTo (s.reg r)) ∨ (taken s.fl = false ∧ t = s.advance 2))) ∨
    ∃ e, t = s.raise e := by
  rcases withOperandBytes_next h with ⟨hp, h⟩ | ⟨-, h⟩
  · rcases withReg_next h with ⟨hb, h⟩ | ⟨-, h⟩
    · refine .inl ⟨_, regIdx_of_lt hb, hp, ?_⟩
      split at h
      · cases h
      · split at h
        · exact .inl ⟨‹_›, by cases h; rfl⟩
        · rename_i hn
          exact .inr ⟨by simpa using hn, by cases h; rfl⟩
    · exact .inr ⟨_, h⟩
  · exact .inr ⟨_, h⟩

end Sys2Proof.Machine
end

