-- ==== Sys2Proof/Laws/PerInstr.lean ====
section
/-! SUPPORT. Statements made per instruction: EncodedLength, the length of an instruction is one opcode byte and
the operand bytes its mnemonic fixes (30_encoding.md, rules R80, R81, R84), under every opcode map. -/

namespace Sys2Proof.Laws.EncodedLength

/-- The encoding of `i` has one byte more than its mnemonic has operand bytes, whatever the opcode map. -/
def Statement (i : Instr) : Prop :=
  ∀ opc : OpcodeMap, (encodeWith opc i).length = 1 + i.mnemonic.operandCount

theorem prn (reg : Byte) : Statement (.prn reg) := fun _ => rfl
theorem ldi (reg imm : Byte) : Statement (.ldi reg imm) := fun _ => rfl
theorem mul (regA regB : Byte) : Statement (.mul regA regB) := fun _ => rfl
theorem add (regA regB : Byte) : Statement (.add regA regB) := fun _ => rfl
theorem push (reg : Byte) : Statement (.push reg) := fun _ => rfl
theorem pop (reg : Byte) : Statement (.pop reg) := fun _ => rfl
theorem call (reg : Byte) : Statement (.call reg) := fun _ => rfl
theorem ret : Statement .ret := fun _ => rfl
theorem cmp (regA regB : Byte) : Statement (.cmp regA regB) := fun _ => rfl
theorem jmp (reg : Byte) : Statement (.jmp reg) := fun _ => rfl
theorem jeq (reg : Byte) : Statement (.jeq reg) := fun _ => rfl
theorem jne (reg : Byte) : Statement (.jne reg) := fun _ => rfl
theorem hlt : Statement .hlt := fun _ => rfl

end Sys2Proof.Laws.EncodedLength
end

