-- ==== Sys2Proof/Laws/Step.lean ====
section
/-! SUPPORT. What a fetch and a step can do. -/

namespace Sys2Proof.Machine

variable {opc : OpcodeMap} {unset : FlagsUnsetRead} {s t : State}

/-- The fetch gives an instruction exactly when the decoder reads one from the bytes at `pc`. -/
theorem fetchInstr_ok_iff {i : Instr} :
    fetchInstr opc s = .ok i ↔ ∃ rest, decodeWith opc s.fetchWindow = .ok i rest := by
  unfold fetchInstr
  cases decodeWith opc s.fetchWindow <;> simp

/-! ### The parameter FLAGS_UNSET_READ (R183) -/

/-- `exec` is the meaning at the default value. -/
@[simp] theorem execUnder_default (i : Instr) (s : State) : execUnder flagsUnsetRead i s = exec i s := by
  cases i <;> rfl

/-- After a comparison the parameter has no influence. -/
theorem condBranch_of_set {taken : Flags → Bool} {b : Byte} (h : s.fl ≠ .none) (v w : FlagsUnsetRead) :
    condBranch v taken b s = condBranch w taken b s := by
  simp [condBranch, h]

theorem execUnder_of_set {i : Instr} (h : s.fl ≠ .none) (v w : FlagsUnsetRead) :
    execUnder v i s = execUnder w i s := by
  cases i <;> first | rfl | exact condBranch_of_set h v w

/-- A conditional branch that answers a next state answers the same one under `literal`. -/
theorem condBranch_next_literal {taken : Flags → Bool} {b : Byte} (h : condBranch unset taken b s = .next t) :
    condBranch .literal taken b s = .next t := by
  rcases withOperandBytes_next h with ⟨hp, h'⟩ | ⟨hp, rfl⟩
  · rcases withReg_next h' with ⟨hb, h'⟩ | ⟨hb, rfl⟩
    · split at h'
      · cases h'
      · rw [condBranch, withOperandBytes_of_lt hp, withReg_of_lt hb]
        simpa using h'
    · rw [condBranch, withOperandBytes_of_lt hp, withReg_of_ge hb]
  · exact withOperandBytes_of_ge hp _

/-- What an instruction can do under any value of the parameter, it does under `literal`. -/
theorem execUnder_next_literal {i : Instr} (h : execUnder unset i s = .next t) :
    execUnder .literal i s = .next t := by
  cases i <;> first | exact h | exact condBranch_next_literal h

/-! ### The step -/

/-- The step of a running state whose fetch gives an instruction. -/
theorem stepUnder_of_ok {i : Instr} (hr : s.run = .running) (hf : fetchInstr opc s = .ok i) :
    stepUnder opc unset s = execUnder unset i s := by
  simp [stepUnder, hr, hf]

/-- The step of a running state whose fetch fails. -/
theorem stepUnder_of_error {e : FaultInfo} (hr : s.run = .running) (hf : fetchInstr opc s = .error e) :
    stepUnder opc unset s = .next (s.raise e) := by
  simp [stepUnder, hr, hf]

theorem stepUnder_of_halted (hr : s.run = .halted) : stepUnder opc unset s = .fault .halted := by
  simp [stepUnder, hr]

/-- Everything a step that answers a next state can have done. -/
theorem stepUnder_next (h : stepUnder opc unset s = .next t) :
    s.run = .running ∧
      ((∃ i, fetchInstr opc s = .ok i ∧ execUnder unset i s = .next t) ∨
       (∃ e, fetchInstr opc s = .error e ∧ t = s.raise e)) := by
  cases hr : s.run with
  | halted => rw [stepUnder_of_halted hr] at h; cases h
  | running =>
    refine ⟨rfl, ?_⟩
    cases hf : fetchInstr opc s with
    | ok i => exact .inl ⟨i, rfl, by rwa [stepUnder_of_ok hr hf] at h⟩
    | error e => exact .inr ⟨e, rfl, by rw [stepUnder_of_error hr hf] at h; cases h; rfl⟩

/-- An invariant that holds of a state and that every step keeps holds of every state reached from it. -/
theorem Reaches.keeps {P : State → Prop} (hs : ∀ t u, P t → stepUnder opc unset t = .next u → P u)
    (h : Reaches opc unset s t) (h0 : P s) : P t := by
  induction h with
  | refl => exact h0
  | step _ hu ih => exact hs _ _ ih hu

/-- A run that begins with a step. -/
theorem Reaches.head {u : State} (hu : stepUnder opc unset s = .next u) (h : Reaches opc unset u t) :
    Reaches opc unset s t := by
  induction h with
  | refl => exact .step .refl hu
  | step _ hv ih => exact .step ih hv

end Sys2Proof.Machine
end

