-- ==== Sys2Proof/Tests/Slice0.lean ====
section
/-! SUPPORT. The model's own tests. Expected values are the spec's test vectors (95_test_vectors.md, the V- numbers in
the docstrings) and its encoding tables (30_encoding.md); then one witness per statement that has hypotheses. -/

namespace Sys2Proof.Tests

open Sys2Proof Sys2Proof.Machine

/-! ### Helpers -/

/-- The next state of an answer, if it is one. -/
def nextState? : Result → Option State
  | .next t => some t
  | .fault _ => none
  | .refused _ => none

/-- The fault of an answer, if it is one. -/
def fault? : Result → Option Fault
  | .next _ => none
  | .fault f => some f
  | .refused _ => none

/-- The reset state at the vectors' stack pointer 0xF4 (spec parameter SP_INIT). -/
def base : State := State.resetWith 0xF4

/-- Bytes placed at an address, and the program counter set to it. -/
def place (s : State) (p : PcWord) (bs : List Byte) : State := (s.setPc p).storeBytes p.toNat bs

/-- The state after one step. -/
def after (s : State) : Option State := nextState? (step s)

theorem eq_next {r : Result} {t : State} (h : nextState? r = some t) : r = .next t := by
  cases r <;> simp_all [nextState?]

/-! ### Well-formedness: each register operand's check accepts 7 and refuses 8 -/

theorem test_wf_prn : (Instr.prn 7).wellFormed = true ∧ (Instr.prn 8).wellFormed = false := by decide
theorem test_wf_ldi : (Instr.ldi 7 255).wellFormed = true ∧ (Instr.ldi 8 0).wellFormed = false := by decide
theorem test_wf_mul : (Instr.mul 7 7).wellFormed = true ∧ (Instr.mul 8 7).wellFormed = false ∧
    (Instr.mul 7 8).wellFormed = false := by decide
theorem test_wf_add : (Instr.add 7 7).wellFormed = true ∧ (Instr.add 8 7).wellFormed = false ∧
    (Instr.add 7 8).wellFormed = false := by decide
theorem test_wf_push : (Instr.push 7).wellFormed = true ∧ (Instr.push 8).wellFormed = false := by decide
theorem test_wf_pop : (Instr.pop 7).wellFormed = true ∧ (Instr.pop 255).wellFormed = false := by decide
theorem test_wf_call : (Instr.call 7).wellFormed = true ∧ (Instr.call 8).wellFormed = false := by decide
theorem test_wf_cmp : (Instr.cmp 7 7).wellFormed = true ∧ (Instr.cmp 8 7).wellFormed = false ∧
    (Instr.cmp 7 8).wellFormed = false := by decide
theorem test_wf_jmp : (Instr.jmp 7).wellFormed = true ∧ (Instr.jmp 8).wellFormed = false := by decide
theorem test_wf_jeq : (Instr.jeq 7).wellFormed = true ∧ (Instr.jeq 8).wellFormed = false := by decide
theorem test_wf_jne : (Instr.jne 7).wellFormed = true ∧ (Instr.jne 8).wellFormed = false := by decide
theorem test_wf_no_operand : Instr.ret.wellFormed = true ∧ Instr.hlt.wellFormed = true := by decide

/-! ### Decoding: every constructor, its bytes written bit by bit from R83 and the layouts of R81 -/

theorem test_decode_prn : decode [0b01000111, 0b00000011] = .ok (.prn 3) [] := by decide
theorem test_decode_ldi : decode [0b10000010, 0b00000101, 0b11111111] = .ok (.ldi 5 255) [] := by decide
theorem test_decode_mul : decode [0b10100010, 0b00000001, 0b00000010] = .ok (.mul 1 2) [] := by decide
theorem test_decode_add : decode [0b10100000, 0b00000111, 0b00000000] = .ok (.add 7 0) [] := by decide
theorem test_decode_push : decode [0b01000101, 0b00000101] = .ok (.push 5) [] := by decide
theorem test_decode_pop : decode [0b01000110, 0b00000001] = .ok (.pop 1) [] := by decide
theorem test_decode_call : decode [0b01010000, 0b00000110] = .ok (.call 6) [] := by decide
theorem test_decode_ret : decode [0b00010001, 0b01000111] = .ok .ret [0b01000111] := by decide
theorem test_decode_cmp : decode [0b10100111, 0b00000000, 0b00000001] = .ok (.cmp 0 1) [] := by decide
theorem test_decode_jmp : decode [0b01010100, 0b00000010] = .ok (.jmp 2) [] := by decide
theorem test_decode_jeq : decode [0b01010101, 0b00000010] = .ok (.jeq 2) [] := by decide
theorem test_decode_jne : decode [0b01010110, 0b00000010] = .ok (.jne 2) [] := by decide
theorem test_decode_hlt : decode [0b00000001] = .ok .hlt [] := by decide

/-- Register operand bytes are kept whole (R82): 0x0B is not reduced to 3. -/
theorem test_decode_keeps_whole_operand : decode [0x47, 0x0B] = .ok (.prn 0x0B) [] := by decide

/-- Bytes that are no opcode are rejected by name (R87), the LS-8 codes 0x00 and 0xA1 among them. -/
theorem test_decode_rejects :
    decode [0x00] = .unrecognized 0x00 ∧ decode [0xA1, 0, 1] = .unrecognized 0xA1 ∧
    decode [0xFF] = .unrecognized 0xFF ∧ decode [] = .noBytes ∧
    decode [0x47] = .missingOperand .prn 1 ∧ decode [0x82, 0] = .missingOperand .ldi 2 := by decide

/-- A table word runs as the first instruction after reset (R231): LDI R0,8 (V-LDI-1). -/
theorem test_withFetchWord :
    (after (State.reset.withFetchWord 24 0x080082)).map (fun t => (t.reg 0, t.pc)) = some (8, 3) := by decide

/-! ### One step each -/

/-- V-PRN-1. -/
theorem test_prn_emits :
    (after (place (base.setReg 0 72) 9 [0x47, 0x00])).map (fun t => (t.out, t.pc)) = some ([72], 11) := by decide
/-- V-PRN-4: executes at 254 and leaves pc = 256. -/
theorem test_prn_last_place :
    (after (place (base.setReg 0 7) 254 [0x47, 0x00])).map (fun t => (t.out, t.pc)) = some ([7], 256) := by decide
/-- V-LDI-2: no sign extension. -/
theorem test_ldi_whole_byte :
    (after (place base 0 [0x82, 0x05, 0xFF])).map (fun t => (t.reg 5, t.pc)) = some (255, 3) := by decide
/-- V-LDI-4: index 8 is not reduced. -/
theorem test_ldi_bad_index :
    (after (place base 0 [0x82, 0x08, 0x01])).map (fun t => (t.faultInfo, t.regs, t.pc)) =
      some (some (.outOfBounds .regIdx 8), base.regs, 0) := by decide
/-- V-MUL-3: 65025 mod 256. -/
theorem test_mul_wraps :
    (after (place ((base.setReg 0 255).setReg 1 255) 0 [0xA2, 0, 1])).map (fun t => (t.reg 0, t.reg 1, t.pc)) =
      some (1, 255, 3) := by decide
/-- V-MUL-7: the first bad operand is the one reported. -/
theorem test_mul_first_bad_operand :
    (after (place base 0 [0xA2, 9, 10])).map (·.faultInfo) = some (some (.outOfBounds .regIdx 9)) := by decide
/-- V-ADD-2: 300 mod 256. -/
theorem test_add_wraps :
    (after (place ((base.setReg 0 200).setReg 1 100) 0 [0xA0, 0, 1])).map (fun t => (t.reg 0, t.reg 1, t.fl)) =
      some (44, 100, .none) := by decide
/-- V-ADD-6: the stack pointer is an ordinary register. -/
theorem test_add_stack_pointer :
    (after (place (base.setReg 0 0x10) 0 [0xA0, 7, 0])).map (·.reg 7) = some 0x04 := by decide
/-- V-STK-6: PUSH R7 stores the new value. -/
theorem test_push_r7 :
    (after (place base 0 [0x45, 7])).map (fun t => (t.reg 7, t.memRead 0xF3)) = some (0xF3, some 0xF3) := by decide
/-- V-STK-5: no wrap at 0. -/
theorem test_push_at_zero :
    (after (place ((base.setReg 7 0).setReg 0 0xAB) 0x10 [0x45, 0])).map
      (fun t => (t.faultInfo, t.reg 7, t.pc, t.memRead 255)) =
      some (some (.outOfBounds .stackLow (-1)), 0, 0x10, some 0) := by decide
/-- V-STK-2. -/
theorem test_pop :
    (after (place ((base.setReg 7 0xF3).storeByte 0xF3 0x2A) 0 [0x46, 1])).map
      (fun t => (t.reg 1, t.reg 7, t.memRead 0xF3)) = some (0x2A, 0xF4, some 0x2A) := by decide
/-- V-STK-7: POP R7 gives the popped byte plus 1. -/
theorem test_pop_r7 :
    (after (place ((base.setReg 7 0xF0).storeByte 0xF0 0x20) 0 [0x46, 7])).map (·.reg 7) = some 0x21 := by decide
/-- V-CAL-1. -/
theorem test_call :
    (after (place (base.setReg 1 0x10) 6 [0x50, 1])).map (fun t => (t.reg 7, t.memRead 0xF3, t.pc)) =
      some (0xF3, some 0x08, 0x10) := by decide
/-- V-CAL-4. -/
theorem test_call_return_address :
    (after (place (base.setReg 1 0x30) 254 [0x50, 1])).map (fun t => (t.faultInfo, t.reg 7, t.memRead 0xF3)) =
      some (some (.outOfBounds .retAddr 256), 0xF4, some 0) := by decide
/-- V-CAL-2. -/
theorem test_ret :
    (after (place ((base.setReg 7 0xF3).storeByte 0xF3 0x08) 0x15 [0x11])).map (fun t => (t.reg 7, t.pc)) =
      some (0xF4, 0x08) := by decide
/-- V-CAL-7. -/
theorem test_ret_at_top :
    (after (place ((base.setReg 7 0xFF).storeByte 0xFF 0x33) 0 [0x11])).map (fun t => (t.faultInfo, t.reg 7, t.pc)) =
      some (some (.outOfBounds .stackHigh 256), 0xFF, 0) := by decide
/-- V-CMP-4: unsigned. -/
theorem test_cmp_unsigned :
    (after (place ((base.setReg 0 255).setReg 1 1) 0 [0xA7, 0, 1])).map (fun t => (t.fl, t.pc)) =
      some (.gt, 3) := by decide
/-- V-CMP-3: the direction. -/
theorem test_cmp_less :
    (after (place ((base.setReg 0 5).setReg 1 6) 0 [0xA7, 0, 1])).map (·.fl) = some .lt := by decide
/-- V-BR-9. -/
theorem test_jmp :
    (after (place (base.setReg 2 0x13) 0x30 [0x54, 2])).map (fun t => (t.pc, t.fl)) = some (0x13, .none) := by decide
/-- V-BR-1 and V-BR-7. -/
theorem test_jeq :
    (after (place ((base.setReg 2 0x13).setFl .eq) 0x30 [0x55, 2])).map (·.pc) = some 0x13 ∧
    (after (place (base.setReg 2 0x13) 0x30 [0x55, 2])).map (·.pc) = some 0x32 := by decide
/-- V-BR-10: the index is validated on an untaken branch. -/
theorem test_jeq_bad_index :
    (after (place (base.setFl .gt) 0x30 [0x55, 8])).map (fun t => (t.faultInfo, t.pc)) =
      some (some (.outOfBounds .regIdx 8), 0x30) := by decide
/-- V-BR-4 and V-BR-6. -/
theorem test_jne :
    (after (place ((base.setReg 2 0x13).setFl .eq) 0x30 [0x56, 2])).map (·.pc) = some 0x32 ∧
    (after (place ((base.setReg 2 0x13).setFl .lt) 0x30 [0x56, 2])).map (·.pc) = some 0x13 := by decide
/-- V-BR-7 and V-BR-8 under FLAGS_UNSET_READ = fault: the step has no meaning. -/
theorem test_branch_unset_fault :
    fault? (stepUnder defaultOpc .fault (place (base.setReg 2 0x13) 0x30 [0x55, 2])) = some .flagsUnset ∧
    fault? (stepUnder defaultOpc .fault (place (base.setReg 2 0x13) 0x30 [0x56, 2])) = some .flagsUnset := by decide
/-- V-BR-1 and V-BR-6 are the same under FLAGS_UNSET_READ = fault. -/
theorem test_branch_set_fault :
    (nextState? (stepUnder defaultOpc .fault (place ((base.setReg 2 0x13).setFl .eq) 0x30 [0x55, 2]))).map (·.pc) =
      some 0x13 ∧
    (nextState? (stepUnder defaultOpc .fault (place ((base.setReg 2 0x13).setFl .lt) 0x30 [0x56, 2]))).map (·.pc) =
      some 0x13 := by decide
/-- P5d under FLAGS_UNSET_READ = fault: the second step has no meaning. -/
theorem test_run_unset_fault :
    fault? (runFor defaultOpc .fault 3 (place base 0 [0x82, 0, 7, 0x56, 0, 0x47, 0, 1])) = some .flagsUnset := by decide
/-- V-DSP-1. -/
theorem test_hlt :
    (after (place base 4 [0x01])).map (fun t => (t.run, t.cause, t.pc)) = some (.halted, .hlt, 4) := by decide
/-- V-DSP-4: HLT fetches no operand. -/
theorem test_hlt_last_place :
    (after (place base 255 [0x01])).map (fun t => (t.cause, t.pc)) = some (.hlt, 255) := by decide
/-- V-DSP-2. -/
theorem test_empty_memory :
    (after base).map (fun t => (t.cause, t.faultInfo, t.pc)) =
      some (.unrecognizedOpcode, some (.unrecognizedOpcode 0 0), 0) := by decide
/-- V-DSP-5. -/
theorem test_fetch_past_the_end :
    (after (base.setPc 256)).map (fun t => (t.cause, t.faultInfo, t.pc)) =
      some (.outOfBounds, some (.outOfBounds .fetch 256), 256) := by decide
/-- V-DSP-6. -/
theorem test_no_step_when_halted : fault? (step base.haltNormally) = some .halted := by decide
/-- The codes of R200 and the layout of R31. -/
theorem test_codes :
    [Cause.noneYet, .hlt, .unrecognizedOpcode, .outOfBounds, .unsupportedOperation].map Cause.code = [0, 1, 2, 3, 4] ∧
    [Flags.none, .eq, .gt, .lt].map Flags.bits = [0b000, 0b001, 0b010, 0b100] := by decide
/-- A selector the unit lacks (R116). -/
theorem test_alu_unsupported :
    (nextState? (execAlu (.other 5) 0 1 base)).map (fun t => (t.cause, t.faultInfo)) =
      some (.unsupportedOperation, some (.unsupportedOperation (.other 5))) := by decide

/-! ### Witnesses: for each statement with hypotheses, a state and operands that meet them all, one for each clause at
a boundary of its range -/

/-- A lawful opcode map that is not the default: PRN and HLT exchanged. -/
def otherOpc : OpcodeMap
  | .prn => 0x01
  | .hlt => 0x47
  | .ldi => 0x82
  | .mul => 0xA2
  | .add => 0xA0
  | .push => 0x45
  | .pop => 0x46
  | .call => 0x50
  | .ret => 0x11
  | .cmp => 0xA7
  | .jmp => 0x54
  | .jeq => 0x55
  | .jne => 0x56

theorem witness_OpcodeDecodingIsExact :
    OpcodeMap.Lawful defaultOpc ∧ OpcodeMap.Lawful otherOpc ∧ decodeWith otherOpc [0x01, 3] = .ok (.prn 3) [] :=
  ⟨OpcodeMap.lawful_default, by intro m n; cases m <;> cases n <;> decide, by decide⟩

theorem witness_DecodeOfEncodeIsTheInstruction :
    OpcodeMap.Lawful defaultOpc ∧ decodeWith defaultOpc (encodeWith defaultOpc (.ldi 255 0) ++ [1]) =
      .ok (.ldi 255 0) [1] := ⟨OpcodeMap.lawful_default, by decide⟩

theorem witness_DecodedBytesAreTheEncoding : decodeWith defaultOpc [0xA7, 7, 255, 9] = .ok (.cmp 7 255) [9] := by decide

theorem witness_StepRunsTheDecodedInstruction :
    (place base 254 [0x47, 0]).run = .running ∧ decode (place base 254 [0x47, 0]).fetchWindow = .ok (.prn 0) [] := by
  decide

theorem witness_StepRunsTheInstructionEncodedAtPc :
    OpcodeMap.Lawful defaultOpc ∧ (place base 253 [0x82, 0, 9]).run = .running ∧
    ∀ k b, (encodeWith defaultOpc (.ldi 0 9))[k]? = some b →
      (place base 253 [0x82, 0, 9]).memRead ((place base 253 [0x82, 0, 9]).pc.toNat + k) = some b := by
  refine ⟨OpcodeMap.lawful_default, by decide, fun k b h => ?_⟩
  rcases k with _ | _ | _ | k
  · rw [← h]; decide
  · rw [← h]; decide
  · rw [← h]; decide
  · simp [encodeWith, Instr.operandBytes] at h

theorem witness_InstructionBytesAscend :
    (∃ i, fetchInstr defaultOpc (place base 253 [0xA2, 1, 2]) = .ok i ∧ i = .mul 1 2) ∧
    (nextState? (launch 0xF4 [0x82, 0, 8])).isSome = true := by
  exact ⟨⟨_, rfl, by decide⟩, by decide⟩

theorem witness_OpcodeByteAloneDecidesTheLength :
    decodeWith defaultOpc (0x82 :: [8, 255]) = .ok (.ldi 8 255) [] ∧
    decodeWith defaultOpc (0x82 :: [0, 0x47, 3]) = .ok (.ldi 0 0x47) [3] := by decide

/-- A JNE with a valid operand at the last place, before any comparison. -/
theorem unset_branch : (place base 254 [0x56, 7]).BranchesUnset defaultOpc :=
  ⟨by decide, by decide, 7, by decide, .inr rfl⟩

/-- A JNE whose register byte is 8 is no such case: it raises. -/
theorem not_unset_branch : ¬ (place base 254 [0x56, 8]).BranchesUnset defaultOpc := by
  rintro ⟨-, -, b, hb, h | h⟩
  · cases h
  · cases h; exact absurd hb (by decide)

theorem witness_StepAnswersExactlyWhenRunning :
    base.run = .running ∧ base.haltNormally.run = .halted ∧
    (place base 254 [0x56, 7]).BranchesUnset defaultOpc ∧
    (place base 254 [0x56, 8]).run = .running ∧ ¬ (place base 254 [0x56, 8]).BranchesUnset defaultOpc :=
  ⟨by decide, by decide, unset_branch, by decide, not_unset_branch⟩

theorem witness_UnrecognisedOpcodeStopsTheRun :
    (place base 255 [0xFF]).run = .running ∧
    (place base 255 [0xFF]).memRead (place base 255 [0xFF]).pc.toNat = some 0xFF ∧
    ∀ m, (0xFF : Byte) ≠ defaultOpc m := ⟨by decide, by decide, fun m => by cases m <;> decide⟩

theorem witness_NoWrapPastTheTopOfMemory :
    OpcodeMap.Lawful defaultOpc ∧ (base.setPc 256).run = .running ∧ 256 ≤ (base.setPc 256).pc.toNat ∧
    (place base 255 [0x47]).memRead (place base 255 [0x47]).pc.toNat = some (defaultOpc .prn) ∧
    256 ≤ (place base 255 [0x47]).pc.toNat + Mnemonic.operandCount .prn ∧
    (place base 254 [0x82, 0]).memRead (place base 254 [0x82, 0]).pc.toNat = some (defaultOpc .ldi) ∧
    256 ≤ (place base 254 [0x82, 0]).pc.toNat + Mnemonic.operandCount .ldi :=
  ⟨OpcodeMap.lawful_default, by decide, by decide, by decide, by decide, by decide, by decide⟩

theorem witness_ExecChecksItsOperandAddresses :
    ((base.setPc 255).pc.toNat ≤ 255 ∧ 256 ≤ (base.setPc 255).pc.toNat + (Instr.jne 0).mnemonic.operandCount) ∧
    ((base.setPc 254).pc.toNat ≤ 255 ∧ 256 ≤ (base.setPc 254).pc.toNat + (Instr.cmp 0 9).mnemonic.operandCount) := by
  decide

theorem witness_ErrorsArePrecise :
    ∃ t, stepUnder defaultOpc .literal base = .next t ∧ t.run = .halted ∧ t.cause ≠ .hlt := ⟨_, rfl, by decide, by decide⟩

theorem witness_InvalidRegisterIndexRaises :
    (Instr.mul 9 10).registerOperands.find? (fun r => decide (8 ≤ r.toNat)) = some 9 ∧
    (Instr.add 7 8).registerOperands.find? (fun r => decide (8 ≤ r.toNat)) = some 8 ∧
    (base.setPc 253).pc.toNat + (Instr.mul 9 10).mnemonic.operandCount ≤ 255 := by decide

theorem witness_SuccessOnlyThroughHlt :
    OpcodeMap.Lawful defaultOpc ∧ (place base 255 [0x01]).run = .running ∧
    ∃ t, stepUnder defaultOpc .literal (place base 255 [0x01]) = .next t :=
  ⟨OpcodeMap.lawful_default, by decide, _, rfl⟩

theorem witness_PrnEmitsTheRegister :
    (((7 : Byte).toNat < 8) ∧ (base.setPc 254).pc.toNat + 1 ≤ 255) ∧ 8 ≤ (8 : Byte).toNat ∧
    (base.setPc 255).pc = 255 := by decide

theorem witness_LdiLoadsTheImmediate :
    (((7 : Byte).toNat < 8) ∧ (base.setPc 253).pc.toNat + 2 ≤ 255) ∧ 8 ≤ (8 : Byte).toNat ∧
    (base.setPc 254).pc = 254 ∧ (base.setPc 255).pc = 255 := by decide

theorem witness_MulMultiplies :
    (7 : Byte).toNat < 8 ∧ (0 : Byte).toNat < 8 ∧ (base.setPc 253).pc.toNat + 2 ≤ 255 := by decide

theorem witness_AddAdds :
    (7 : Byte).toNat < 8 ∧ (7 : Byte).toNat < 8 ∧ (base.setPc 253).pc.toNat + 2 ≤ 255 := by decide

theorem witness_AluImplementsOnlyAddAndMul :
    (0 : Byte).toNat < 8 ∧ (7 : Byte).toNat < 8 ∧ (base.setPc 253).pc.toNat + 2 ≤ 255 := by decide

/-- The hypotheses ask for a state that already holds the cause; no run reaches one (R203), so it is built. -/
theorem witness_UnsupportedOperationIsUnreachable :
    ∃ t, stepUnder defaultOpc .literal (place { base with cause := .unsupportedOperation } 0 [0x82, 0, 1]) = .next t ∧
      t.cause = .unsupportedOperation := ⟨_, rfl, by decide⟩

theorem witness_PushStoresBelowTheStackPointer :
    (7 : Byte).toNat < 8 ∧ (base.setPc 254).pc.toNat + 1 ≤ 255 ∧ (base.setReg 7 1).reg 7 ≠ 0 ∧
    (base.setReg 7 255).reg 7 ≠ 0 ∧ (base.setReg 7 0).reg 7 = 0 := by decide

theorem witness_PopLoadsFromTheStackPointer :
    (base.setPc 254).pc.toNat + 1 ≤ 255 ∧
    ((base.setReg 7 254).memRead ((base.setReg 7 254).reg 7).toNat = some 0 ∧
      (254 : Byte) = (if (0 : Byte) = 7 then 0 else (base.setReg 7 254).reg 7) ∧ (254 : Byte) ≠ 255) ∧
    ((base.setReg 7 255).memRead ((base.setReg 7 255).reg 7).toNat = some 0 ∧
      (255 : Byte) = (if (0 : Byte) = 7 then 0 else (base.setReg 7 255).reg 7)) ∧
    ((base.storeByte 0xF4 255).memRead (base.reg 7).toNat = some 255 ∧
      (255 : Byte) = (if (7 : Byte) = 7 then 255 else (base.storeByte 0xF4 255).reg 7)) := by decide

theorem witness_CallPushesTheReturnAddress :
    ((7 : Byte).toNat < 8 ∧ (base.setPc 253).pc.toNat + 1 ≤ 255) ∧
    ((base.setReg 7 1).reg 7 ≠ 0 ∧ ((base.setReg 7 1).setPc 253).pc.toNat + 2 ≤ 255) ∧
    (base.setReg 7 0).reg 7 = 0 ∧
    ((base.setPc 254).reg 7 ≠ 0 ∧ (base.setPc 254).pc = 254 ∧ (base.setPc 254).pc.toNat + 1 ≤ 255) := by decide

theorem witness_RetPopsThePc :
    ((base.setReg 7 254).memRead ((base.setReg 7 254).reg 7).toNat = some 0 ∧ (base.setReg 7 254).reg 7 ≠ 255) ∧
    ((base.setReg 7 255).memRead ((base.setReg 7 255).reg 7).toNat = some 0 ∧ (base.setReg 7 255).reg 7 = 255) := by
  decide

theorem witness_CmpSetsTheFlags :
    (7 : Byte).toNat < 8 ∧ (0 : Byte).toNat < 8 ∧ (base.setPc 253).pc.toNat + 2 ≤ 255 := by decide

theorem witness_JmpJumps :
    (((7 : Byte).toNat < 8) ∧ (base.setPc 254).pc.toNat + 1 ≤ 255) ∧ 8 ≤ (8 : Byte).toNat ∧
    (base.setPc 255).pc = 255 := by decide

theorem witness_BranchesFollowTheFlags :
    (7 : Byte).toNat < 8 ∧ (base.setPc 254).pc.toNat + 1 ≤ 255 ∧ (base.setFl .eq).fl = .eq ∧
    (base.setFl .gt).fl ≠ .eq ∧ base.fl ≠ .eq := by decide

theorem witness_BranchBeforeAnyCompare :
    (7 : Byte).toNat < 8 ∧ (base.setPc 254).pc.toNat + 1 ≤ 255 ∧ (base.setPc 254).fl = .none ∧
    (base.setFl .lt).fl ≠ .none ∧ (Instr.jmp 7).mnemonic ≠ .jeq ∧ (Instr.jmp 7).mnemonic ≠ .jne := by decide

theorem witness_FaultParameterWithholdsOnlyUnsetBranches :
    (place base 254 [0x56, 7]).BranchesUnset defaultOpc ∧ ¬ (place base 254 [0x56, 8]).BranchesUnset defaultOpc :=
  ⟨unset_branch, not_unset_branch⟩

/-- A run of one HLT, from no comparison, comes to no branch; a state with a comparison; and a withheld run. -/
theorem witness_RunsAgreeOnceCompared :
    (∀ t, Reaches defaultOpc .literal base.haltNormally t → ¬ t.BranchesUnset defaultOpc) ∧
    (base.setFl .eq).fl ≠ .none ∧ fault? (runFor defaultOpc .fault 1 (place base 254 [0x56, 7])) = some .flagsUnset := by
  refine ⟨fun t h hb => ?_, by decide, by decide⟩
  have : t.run = .halted := Reaches.keeps (P := fun u => u.run = .halted)
    (fun u v hu hs => by rw [stepUnder_of_halted hu] at hs; cases hs) h rfl
  exact absurd hb.1 (by simp [this])

theorem witness_RegistersAreAccessedAsListed :
    (∃ t, exec (.ldi 7 5) base = .next t ∧ t.reg 7 ≠ base.reg 7) ∧
    (¬ Reads (.push 3) base.fl 4 ∧ ∃ t, exec (.push 3) base = .next t) :=
  ⟨⟨_, rfl, by decide⟩, by simp [Reads], _, rfl⟩

theorem witness_PcFollowsTheTable :
    (base.run = .running ∧ ∃ t, exec (.call 7) base = .next t ∧ t.run = .running) ∧
    ∃ t, exec (.call 8) base = .next t ∧ t.run = .halted := ⟨⟨by decide, _, rfl, by decide⟩, _, rfl, by decide⟩

theorem witness_OnlyPushAndCallStore :
    (∃ t, exec (.push 7) base = .next t ∧ (0 : Nat) ≠ (base.reg 7 - 1).toNat) ∧
    (∃ t, exec (.call 7) base = .next t ∧ (255 : Nat) ≠ (base.reg 7 - 1).toNat) ∧
    ((Instr.pop 7).mnemonic ≠ .push ∧ (Instr.pop 7).mnemonic ≠ .call ∧ ∃ t, exec (.pop 7) base = .next t) :=
  ⟨⟨_, rfl, by decide⟩, ⟨_, rfl, by decide⟩, by decide, by decide, _, rfl⟩

theorem witness_OnlyCompareWritesFlags :
    (∃ t, exec (.cmp 0 0) base = .next t ∧ t.fl ≠ base.fl) ∧
    ((Instr.cmp 0 7).mnemonic ≠ .jeq ∧ (Instr.cmp 0 7).mnemonic ≠ .jne ∧ ∃ t, exec (.cmp 0 7) base = .next t) ∧
    ((base.setFl .gt).fl = .gt ∧ ∃ t, exec (.jne 7) (base.setFl .gt) = .next t) :=
  ⟨⟨_, rfl, by decide⟩, ⟨by decide, by decide, _, rfl⟩, by decide, _, rfl⟩

theorem witness_OutputGrowsOnlyByPrn :
    (∃ t, stepUnder defaultOpc .literal (place base 254 [0x47, 7]) = .next t ∧ t.run = .running ∧
      fetchInstr defaultOpc (place base 254 [0x47, 7]) = .ok (.prn 7)) ∧
    stepUnder defaultOpc .fault (place base 254 [0x56, 7]) = .fault .flagsUnset ∧
    ∃ t, exec (.prn 7) base = .next t := ⟨⟨_, rfl, by decide, rfl⟩, rfl, _, rfl⟩

theorem witness_ControlStateChangesOnlyByHaltOrError :
    (∃ t, exec (.jmp 7) base = .next t) ∧ (∃ t, exec (.jmp 8) base = .next t) ∧ ∃ t, exec .hlt base = .next t :=
  ⟨⟨_, rfl⟩, ⟨_, rfl⟩, _, rfl⟩

theorem witness_MemoryContract : (255 < 256 ∧ base.memWrite 256 1 = none) ∧ (255 ≤ 255 ∧ base.memRead 255 = some 0) := by
  decide

theorem witness_ImageLoadDepositsTheBytes :
    ((List.replicate 256 255).length ≤ 256 ∧ ∀ n ∈ List.replicate 256 255, n ≤ 255) ∧
    256 < (List.replicate 257 0).length ∧ ∃ n ∈ [256], 255 < n :=
  ⟨⟨by rw [List.length_replicate], fun n h => by rw [(List.mem_replicate.1 h).2]⟩,
    by rw [List.length_replicate]; decide, 256, List.mem_singleton.2 rfl, by decide⟩

/-- PUSH R1 of a JNE opcode into the cell after it; PUSH R7 of the non-opcode 2 into the cell after it. -/
theorem witness_StoredByteIsFetchedByTheNextStep_push :
    OpcodeMap.Lawful defaultOpc ∧
    (let s := place ((base.setReg 7 3).setReg 1 0x56) 0 [0x45, 1]
     s.run = .running ∧ s.reg 7 ≠ 0 ∧ s.memRead (s.pc.toNat + 1) = some 1 ∧
     s.memRead s.pc.toNat = some (defaultOpc .push) ∧
     (0x56 : Byte) = (if (1 : Byte) = 7 then s.reg 7 - 1 else s.reg 1) ∧ s.pc.toNat + 2 = (s.reg 7).toNat - 1) ∧
    (let s := place (base.setReg 7 3) 0 [0x45, 7]
     s.run = .running ∧ s.reg 7 ≠ 0 ∧ s.memRead (s.pc.toNat + 1) = some 7 ∧
     s.memRead s.pc.toNat = some (defaultOpc .push) ∧
     (2 : Byte) = (if (7 : Byte) = 7 then s.reg 7 - 1 else s.reg 7) ∧ s.pc.toNat + 2 = (s.reg 7).toNat - 1) ∧
    ∀ m, (2 : Byte) ≠ defaultOpc m :=
  ⟨OpcodeMap.lawful_default, by decide, by decide, fun m => by cases m <;> decide⟩

/-- The stored cell as an operand byte: PUSH R1 at 0 overwrites the operand of the PRN after it (the spec's P6). -/
theorem witness_StoredByteIsFetchedByTheNextStep_operand :
    let s := place ((base.setReg 7 4).setReg 1 5) 0 [0x45, 1, 0x47, 0]
    s.reg 7 ≠ 0 ∧ ∀ k x, (encodeWith defaultOpc (.prn 5))[k]? = some x →
      (if 2 + k = (s.reg 7).toNat - 1 then some 5 else s.memRead (2 + k)) = some x := by
  refine ⟨by decide, fun k x h => ?_⟩
  rcases k with _ | _ | k
  · rw [← h]; decide
  · rw [← h]; decide
  · simp [encodeWith, Instr.operandBytes] at h

/-- CALL R7 at the last place, 253: the target is the cell that holds the return address 255, no opcode. -/
theorem witness_StoredByteIsFetchedByTheNextStep_call :
    (let s := place base 253 [0x50, 7]
     s.run = .running ∧ s.reg 7 ≠ 0 ∧ s.memRead (s.pc.toNat + 1) = some 7 ∧
     s.memRead s.pc.toNat = some (defaultOpc .call) ∧ (255 : Byte).toNat = s.pc.toNat + 2 ∧
     (0xF3 : Byte) = (if (7 : Byte) = 7 then s.reg 7 - 1 else s.reg 7) ∧
     (0xF3 : Byte).toNat = (s.reg 7).toNat - 1) ∧ ∀ m, (255 : Byte) ≠ defaultOpc m :=
  ⟨by decide, fun m => by cases m <;> decide⟩

theorem witness_StepsLeaveTheCellsBelowTheStack :
    ∃ t, stepUnder defaultOpc .literal (place (base.setReg 7 2) 0 [0x45, 0]) = .next t ∧
      1 + 1 ≤ ((place (base.setReg 7 2) 0 [0x45, 0]).reg 7).toNat ∧ 0 < 1 := ⟨_, rfl, by decide⟩

theorem witness_PushThenPopRestores :
    OpcodeMap.Lawful defaultOpc ∧
    (let s := place (base.setReg 7 1) 252 [0x45, 7, 0x46, 7]
     (7 : Byte).toNat < 8 ∧ s.run = .running ∧ s.pc.toNat + 3 ≤ 255 ∧ s.reg 7 ≠ 0 ∧
     s.memRead s.pc.toNat = some (defaultOpc .push) ∧ s.memRead (s.pc.toNat + 1) = some 7 ∧
     s.memRead (s.pc.toNat + 2) = some (defaultOpc .pop) ∧ s.memRead (s.pc.toNat + 3) = some 7 ∧
     (s.reg 7).toNat - 1 ≠ s.pc.toNat + 2 ∧ (s.reg 7).toNat - 1 ≠ s.pc.toNat + 3) :=
  ⟨OpcodeMap.lawful_default, by decide⟩

theorem witness_CallThenRetReturns :
    ((7 : Byte).toNat < 8 ∧ ((base.setReg 7 1).setPc 253).pc.toNat ≤ 253 ∧ ((base.setReg 7 1).setPc 253).reg 7 ≠ 0) ∧
    ∃ t u : State, exec (.call 7) ((base.setReg 7 1).setPc 253) = .next t ∧ u.reg 7 = t.reg 7 ∧
      u.memRead 0 = t.memRead 0 := ⟨by decide, _, _, rfl, rfl, rfl⟩

theorem witness_FlagsStaySetOnceCompared :
    ∃ t, Reaches defaultOpc .literal (place (base.setFl .gt) 0 [0xA7, 0, 0]) t ∧ (place (base.setFl .gt) 0 [0xA7, 0, 0]).fl ≠ .none ∧
      t.fl = .eq := ⟨_, .step .refl rfl, by decide, by decide⟩

theorem witness_DiagnosticsAndOutputAreNeverRead :
    base.SameCore { base with out := [1], cause := .hlt } ∧ ∃ t, stepUnder defaultOpc .literal base = .next t :=
  ⟨⟨rfl, rfl, rfl, rfl, rfl⟩, _, rfl⟩

theorem base_inv : base.Inv :=
  ⟨by decide, by decide, by decide, by decide, fun e h => by simp [base, State.resetWith] at h⟩

theorem witness_StepKeepsTheInvariant : base.Inv ∧ ∃ t, stepUnder defaultOpc .literal base = .next t := ⟨base_inv, _, rfl⟩

theorem witness_EveryRunKeepsTheInvariant :
    ∃ s t, launch 0xF4 [0x82, 0, 8, 0x01] = .next s ∧ Reaches defaultOpc .literal s t ∧ t.run = .halted :=
  ⟨_, _, rfl, .step (.step .refl rfl) rfl, by decide⟩

end Sys2Proof.Tests
end

/-! SUPPORT. The normal form of a meaning: an instruction first makes its checks, in the order of 60_exceptions.md
(R205), and raises the first error they find; if they find none it has one effect on the state. `execUnder_eq` says
that every instruction of the model is of this form; what an instruction changes, leaves and reads is then proved of
`firstError` and `effect`. -/

namespace Sys2Proof.Machine

section NormalForm

variable {s t : State}

/-- The register that an operand byte below 8 names (R25). Where it is used the checks have refused every other byte,
so the reduction that makes it total is never seen. -/
def regOf (b : Byte) : RegIdx := ⟨b.toNat % 8, Nat.mod_lt _ (by decide)⟩

theorem regOf_val {b : Byte} (h : b.toNat < 8) : (regOf b).val = b.toNat := Nat.mod_eq_of_lt h

theorem regOf_of_lt {b : Byte} (h : b.toNat < 8) : regOf b = ⟨b.toNat, h⟩ := Fin.ext (regOf_val h)

theorem eq_regOf_iff {b : Byte} (h : b.toNat < 8) {j : RegIdx} : j = regOf b ↔ j.val = b.toNat := by
  rw [Fin.ext_iff, regOf_val h]

theorem State.regNamed_of_lt (s : State) {b : Byte} (h : b.toNat < 8) :
    s.regNamed b = some (s.reg (regOf b)) := by
  rw [State.regNamed, dif_pos h, regOf_of_lt h]

/-! ### The checks, in the order of R205 -/

/-- The operand fetches' error (R28): none for an instruction without operand bytes. -/
def operandError (n : Nat) (s : State) : Option FaultInfo :=
  if n = 0 ∨ s.pc.toNat + n < 256 then none
  else some (.outOfBounds .operand (max (s.pc.toNat + 1) 256 : Nat))

/-- The first register operand byte that is 8 or more (R25, D27). -/
def registerError (bs : List Byte) : Option FaultInfo :=
  (bs.find? fun r => decide (8 ≤ r.toNat)).map fun b => .outOfBounds .regIdx b.toNat

/-- The decrement's error (R150, R160). -/
def stackLowError (s : State) : Option FaultInfo :=
  if s.sp = 0 then some (.outOfBounds .stackLow (-1)) else none

/-- The increment's error (R151, R161). -/
def stackHighError (s : State) : Option FaultInfo :=
  if s.sp = 255 then some (.outOfBounds .stackHigh 256) else none

/-- The error of a return address that is none (R160, D21). -/
def returnError (s : State) : Option FaultInfo :=
  if s.pc.toNat + 2 < 256 then none else some (.outOfBounds .retAddr (s.pc.toNat + 2 : Nat))

/-- The checks an instruction makes of the stack, after those of its operands. -/
def stackError (i : Instr) (s : State) : Option FaultInfo :=
  match i with
  | .push _ => stackLowError s
  | .call _ => (stackLowError s).or (returnError s)
  | .pop b => stackHighError (s.setReg (regOf b) (s.loadByte s.sp))
  | .ret => stackHighError s
  | .prn _ | .ldi _ _ | .mul _ _ | .add _ _ | .cmp _ _ | .jmp _ | .jeq _ | .jne _ | .hlt => none

/-- The first error an instruction finds, if it finds one. -/
def firstError (i : Instr) (s : State) : Option FaultInfo :=
  (operandError i.mnemonic.operandCount s).or ((registerError i.registerOperands).or (stackError i s))

/-! ### The effect -/

/-- What an instruction whose checks have all passed does to the state. -/
def effect (i : Instr) (s : State) : State :=
  match i with
  | .prn b => (s.emit (s.reg (regOf b))).advance 2
  | .ldi b v => (s.setReg (regOf b) v).advance 3
  | .mul a b => (s.setReg (regOf a) (s.reg (regOf a) * s.reg (regOf b))).advance 3
  | .add a b => (s.setReg (regOf a) (s.reg (regOf a) + s.reg (regOf b))).advance 3
  | .push b =>
    ((s.setSp (s.sp - 1)).storeByte (s.sp - 1) ((s.setSp (s.sp - 1)).reg (regOf b))).advance 2
  | .pop b =>
    let s' := s.setReg (regOf b) (s.loadByte s.sp)
    (s'.setSp (s'.sp + 1)).advance 2
  | .call b =>
    ((s.setSp (s.sp - 1)).storeByte (s.sp - 1) (BitVec.ofNat 8 (s.pc.toNat + 2))).jumpTo
      ((s.setSp (s.sp - 1)).reg (regOf b))
  | .ret => (s.setSp (s.sp + 1)).jumpTo (s.loadByte s.sp)
  | .cmp a b => (s.setFl (compareBytes (s.reg (regOf a)) (s.reg (regOf b)))).advance 3
  | .jmp b => s.jumpTo (s.reg (regOf b))
  | .jeq b => if s.fl = .eq then s.jumpTo (s.reg (regOf b)) else s.advance 2
  | .jne b => if s.fl ≠ .eq then s.jumpTo (s.reg (regOf b)) else s.advance 2
  | .hlt => s.haltNormally

/-- The answer of an instruction whose checks have all passed: its effect, or no meaning for a branch before any
comparison under `fault` (R183). -/
def passed (unset : FlagsUnsetRead) (i : Instr) (s : State) : Result :=
  if unset = .fault ∧ s.fl = .none ∧ (i.mnemonic = .jeq ∨ i.mnemonic = .jne) then .fault .flagsUnset
  else .next (effect i s)

/-- The error raised on `s` if there is one, else the answer `r`. -/
def State.raiseOr (s : State) (r : Result) : Option FaultInfo → Result
  | some e => .next (s.raise e)
  | none => r

@[simp] theorem State.raiseOr_some (r : Result) (e : FaultInfo) : s.raiseOr r (some e) = .next (s.raise e) := rfl

@[simp] theorem State.raiseOr_none (r : Result) : s.raiseOr r none = r := rfl

theorem State.raiseOr_or (r : Result) (a b : Option FaultInfo) :
    s.raiseOr r (a.or b) = s.raiseOr (s.raiseOr r b) a := by
  cases a <;> rfl

/-! ### Every shared operation, then every instruction, is of this form -/

theorem operandError_zero : operandError 0 s = none := rfl

theorem registerError_nil : registerError [] = none := rfl

theorem registerError_pair (a b : Byte) :
    registerError [a, b] = (registerError [a]).or (registerError [b]) := by
  by_cases h : 8 ≤ a.toNat <;> simp [registerError, h]

theorem withReg_eq_raiseOr (b : Byte) (k : RegIdx → Result) :
    withReg b s k = s.raiseOr (k (regOf b)) (registerError [b]) := by
  by_cases h : b.toNat < 8
  · simp [withReg_of_lt h, regOf_of_lt h, registerError, h]
  · simp [withReg_of_ge (not_lt.1 h), registerError, not_lt.1 h]

theorem withOperandBytes_eq_raiseOr {n : Nat} (hn : n ≠ 0) (k : Result) :
    withOperandBytes n s k = s.raiseOr k (operandError n s) := by
  by_cases h : s.pc.toNat + n < 256
  · simp [withOperandBytes_of_lt h, operandError, h]
  · simp [withOperandBytes_of_ge (not_lt.1 h), operandError, h, hn]

theorem decSp_eq_raiseOr (k : State → Result) :
    decSp s k = s.raiseOr (k (s.setSp (s.sp - 1))) (stackLowError s) := by
  by_cases h : s.sp = 0
  · rw [decSp_of_eq h, stackLowError, if_pos h, State.raiseOr_some]
  · rw [decSp_of_ne h, stackLowError, if_neg h, State.raiseOr_none]

theorem incSp_eq_raiseOr (s' : State) (k : State → Result) :
    incSp s s' k = s.raiseOr (k (s'.setSp (s'.sp + 1))) (stackHighError s') := by
  by_cases h : s'.sp = 255
  · rw [incSp_of_eq h, stackHighError, if_pos h, State.raiseOr_some]
  · rw [incSp_of_ne h, stackHighError, if_neg h, State.raiseOr_none]

theorem ite_returnError_eq_raiseOr (r : Result) :
    (if s.pc.toNat + 2 < 256 then r else .next (s.raise (.outOfBounds .retAddr (s.pc.toNat + 2 : Nat)))) =
      s.raiseOr r (returnError s) := by
  by_cases h : s.pc.toNat + 2 < 256 <;> simp [returnError, h]

theorem condBranch_eq_raiseOr (unset : FlagsUnsetRead) (taken : Flags → Bool) (b : Byte) :
    condBranch unset taken b s =
      s.raiseOr (s.raiseOr
        (if unset = .fault ∧ s.fl = .none then .fault .flagsUnset
          else .next (if taken s.fl then s.jumpTo (s.reg (regOf b)) else s.advance 2))
        (registerError [b])) (operandError 1 s) := by
  rw [condBranch, withOperandBytes_eq_raiseOr one_ne_zero, withReg_eq_raiseOr, apply_ite Host.Outcome.next]

/-- Every instruction makes its checks, raises the first error they find, and else has its effect. -/
theorem execUnder_eq (unset : FlagsUnsetRead) (i : Instr) (s : State) :
    execUnder unset i s = s.raiseOr (passed unset i s) (firstError i s) := by
  rw [firstError, State.raiseOr_or, State.raiseOr_or]
  cases i with
  | call b =>
    simp only [execUnder, exec, execCall, withOperandBytes_eq_raiseOr one_ne_zero, withReg_eq_raiseOr,
      decSp_eq_raiseOr, ite_returnError_eq_raiseOr, stackError, State.raiseOr_or]
    simp [Instr.mnemonic, Mnemonic.operandCount, Instr.registerOperands, passed, effect]
  | jeq b =>
    simp [execUnder, jeqUnder, condBranch_eq_raiseOr, Flags.isEq, Instr.mnemonic, Mnemonic.operandCount,
      Instr.registerOperands, stackError, passed, effect]
  | jne b =>
    simp [execUnder, jneUnder, condBranch_eq_raiseOr, Flags.isNe, Instr.mnemonic, Mnemonic.operandCount,
      Instr.registerOperands, stackError, passed, effect]
  | _ =>
    simp [execUnder, exec, execPrn, execLdi, execMul, execAdd, execAlu, execPush, execPop, execRet, execCmp, execJmp,
      execHlt, withOperandBytes_eq_raiseOr, withReg_eq_raiseOr, decSp_eq_raiseOr, incSp_eq_raiseOr,
      operandError_zero, registerError_nil, registerError_pair, State.raiseOr_or, Instr.mnemonic,
      Mnemonic.operandCount, Instr.registerOperands, stackError, passed, effect]

/-! ### What an instruction that answers a next state can have done -/

variable {i : Instr} {unset : FlagsUnsetRead} {e : FaultInfo}

theorem exec_eq (i : Instr) (s : State) : exec i s = s.raiseOr (.next (effect i s)) (firstError i s) := by
  rw [← execUnder_default, execUnder_eq, passed, if_neg (fun h => by cases h.1)]

theorem exec_of_error (h : firstError i s = some e) : exec i s = .next (s.raise e) := by
  rw [exec_eq, h, State.raiseOr_some]

theorem exec_of_no_error (h : firstError i s = none) : exec i s = .next (effect i s) := by
  rw [exec_eq, h, State.raiseOr_none]

theorem exec_next (h : exec i s = .next t) :
    (∃ e, firstError i s = some e ∧ t = s.raise e) ∨ (firstError i s = none ∧ t = effect i s) := by
  cases he : firstError i s with
  | some e => exact .inl ⟨e, rfl, by cases (exec_of_error he).symm.trans h; rfl⟩
  | none => exact .inr ⟨rfl, by cases (exec_of_no_error he).symm.trans h; rfl⟩

/-- The same under either value of FLAGS_UNSET_READ: what a branch withholds under `fault` is no next state. -/
theorem exec_of_execUnder_next (h : execUnder unset i s = .next t) : exec i s = .next t :=
  (execUnder_default i s).symm.trans (execUnder_next_literal h)

/-- A step that answers a next state raised an error on the state, or had the effect of the instruction it fetched. -/
theorem stepUnder_next_effect {opc : OpcodeMap} (h : stepUnder opc unset s = .next t) :
    s.run = .running ∧ ((∃ e, t = s.raise e) ∨
      ∃ i, fetchInstr opc s = .ok i ∧ firstError i s = none ∧ t = effect i s) := by
  obtain ⟨hr, ⟨i, hf, hx⟩ | ⟨e, -, ht⟩⟩ := stepUnder_next h
  · obtain ⟨e, -, ht⟩ | ⟨he, ht⟩ := exec_next (exec_of_execUnder_next hx)
    · exact ⟨hr, .inl ⟨e, ht⟩⟩
    · exact ⟨hr, .inr ⟨i, hf, he, ht⟩⟩
  · exact ⟨hr, .inl ⟨e, ht⟩⟩

/-- What it means that an instruction's checks have passed. -/
theorem firstError_eq_none_iff :
    firstError i s = none ↔
      (i.mnemonic.operandCount = 0 ∨ s.pc.toNat + i.mnemonic.operandCount < 256) ∧
      (∀ b ∈ i.registerOperands, b.toNat < 8) ∧ stackError i s = none := by
  simp [firstError, operandError, registerError, or_iff_not_imp_left]

theorem operands_lt_of_no_error (h : firstError i s = none) (hn : i.mnemonic.operandCount ≠ 0) :
    s.pc.toNat + i.mnemonic.operandCount < 256 :=
  (firstError_eq_none_iff.1 h).1.resolve_left hn

theorem register_lt_of_no_error (h : firstError i s = none) {b : Byte} (hb : b ∈ i.registerOperands) :
    b.toNat < 8 :=
  (firstError_eq_none_iff.1 h).2.1 b hb

/-! ### What an effect changes and leaves unchanged -/

/-- R32, R33: HLT apart, an effect leaves the control state as it is. -/
theorem effect_control (h : i ≠ .hlt) :
    (effect i s).run = s.run ∧ (effect i s).cause = s.cause ∧ (effect i s).faultInfo = s.faultInfo := by
  cases i with
  | hlt => exact absurd rfl h
  | jeq b | jne b => rw [effect]; split <;> exact ⟨rfl, rfl, rfl⟩
  | _ => exact ⟨rfl, rfl, rfl⟩

/-- R30: CMP apart, an effect leaves `fl` as it is. -/
theorem effect_fl (h : i.mnemonic ≠ .cmp) : (effect i s).fl = s.fl := by
  cases i with
  | cmp a b => exact absurd rfl h
  | jeq b | jne b => rw [effect]; split <;> rfl
  | _ => rfl

theorem compareBytes_ne_none (x y : Byte) : compareBytes x y ≠ .none := by
  rw [compareBytes]; split_ifs <;> decide

theorem effect_fl_ne_none (h : s.fl ≠ .none) : (effect i s).fl ≠ .none := by
  by_cases hc : i.mnemonic = .cmp
  · cases i with
    | cmp a b => exact compareBytes_ne_none _ _
    | _ => cases hc
  · rwa [effect_fl hc]

theorem effect_mem_wf (i : Instr) (h : Memory.wf s.mem) : Memory.wf (effect i s).mem := by
  cases i with
  | push b | call b => exact State.wf_storeByte (s := s.setSp _) h _ _
  | jeq b | jne b => rw [effect]; split <;> exact h
  | _ => exact h

/-- The next `pc` is an 8-bit target, or the old one (HLT), or past the instruction's bytes. -/
theorem effect_pc_cases (i : Instr) (s : State) :
    (∃ v : Byte, (effect i s).pc = v.setWidth 9) ∨ (effect i s).pc = s.pc ∨
      (i.mnemonic.operandCount ≠ 0 ∧ (effect i s).pc = s.pc + BitVec.ofNat 9 (i.mnemonic.operandCount + 1)) := by
  have hn : ∀ n : Nat, n + 1 ≠ 0 := Nat.succ_ne_zero
  cases i with
  | call b | ret | jmp b => exact .inl ⟨_, rfl⟩
  | jeq b | jne b =>
    rw [effect]
    split
    · exact .inl ⟨_, rfl⟩
    · exact .inr (.inr ⟨hn _, rfl⟩)
  | hlt => exact .inr (.inl rfl)
  | _ => exact .inr (.inr ⟨hn _, rfl⟩)

theorem operandCount_le_two (m : Mnemonic) : m.operandCount ≤ 2 := by cases m <;> decide

theorem effect_pc_le (h : firstError i s = none) (hpc : s.pc.toNat ≤ 256) : (effect i s).pc.toNat ≤ 256 := by
  obtain ⟨v, hv⟩ | hs | ⟨hn, ha⟩ := effect_pc_cases i s
  · rw [hv, ← State.jumpTo_pc s, jumpTo_pc_toNat]
    exact v.isLt.le
  · rwa [hs]
  · rw [ha]
    have := operands_lt_of_no_error h hn
    have := operandCount_le_two i.mnemonic
    rw [BitVec.toNat_add, BitVec.toNat_ofNat]
    omega

/-- R27: an instruction that completes, HLT apart, sets `pc` to the table's value. -/
theorem nextPc_effect (h : firstError i s = none) (hi : i ≠ .hlt) :
    NextPc i s (effect i s) = some (effect i s).pc.toNat := by
  have hreg := fun b hb => register_lt_of_no_error (b := b) h hb
  have hpc := operands_lt_of_no_error h
  cases i with
  | hlt => exact absurd rfl hi
  | ret => rw [NextPc, effect, jumpTo_pc_toNat, State.memRead_byte]; rfl
  | call b | jmp b =>
    rw [NextPc, effect, jumpTo_pc_toNat, State.regNamed_of_lt _ (hreg b (.head _))]; rfl
  | jeq b | jne b =>
    rw [NextPc, effect]
    split
    · rw [jumpTo_pc_toNat, State.regNamed_of_lt _ (hreg b (.head _))]; rfl
    · rw [advance_pc_toNat (n := 2) (Nat.succ_le_of_lt (hpc one_ne_zero))]; rfl
  | prn b | push b | pop b =>
    exact congrArg some (advance_pc_toNat (n := 2) (Nat.succ_le_of_lt (hpc one_ne_zero))).symm
  | ldi a b | mul a b | add a b | cmp a b =>
    exact congrArg some (advance_pc_toNat (n := 3) (Nat.succ_le_of_lt (hpc two_ne_zero))).symm

/-- What PRN prints (R130); every other instruction prints nothing. -/
def printed (i : Instr) (s : State) : List Byte :=
  match i with
  | .prn b => [s.reg (regOf b)]
  | .ldi _ _ | .mul _ _ | .add _ _ | .push _ | .pop _ | .call _ | .ret | .cmp _ _ | .jmp _ | .jeq _ | .jne _
  | .hlt => []

/-- R34: an effect appends to `out` what it prints, and does not read it. -/
theorem effect_out (i : Instr) (s : State) (o : List Byte) :
    effect i { s with out := o } = { effect i s with out := o ++ printed i s } := by
  cases i with
  | prn b => rfl
  | jeq b | jne b =>
    simp only [effect, printed, List.append_nil]
    split <;> rfl
  | _ => simp only [printed, List.append_nil]; rfl

theorem out_effect (i : Instr) (s : State) : (effect i s).out = s.out ++ printed i s :=
  congrArg State.out (effect_out i s s.out)

theorem effect_prn_out {b : Byte} (h : firstError (.prn b) s = none) :
    ∃ v, s.regNamed b = some v ∧ (effect (.prn b) s).out = s.out ++ [v] :=
  ⟨_, s.regNamed_of_lt (register_lt_of_no_error h (.head _)), rfl⟩

theorem effect_out_cases (h : firstError i s = none) :
    (effect i s).out = s.out ∨ ∃ b v, i = .prn b ∧ s.regNamed b = some v ∧ (effect i s).out = s.out ++ [v] := by
  cases i with
  | prn b =>
    obtain ⟨v, hv, ho⟩ := effect_prn_out h
    exact .inr ⟨b, v, rfl, hv, ho⟩
  | _ => exact .inl ((out_effect _ s).trans (List.append_nil _))

/-- R24, the column "writes". -/
theorem writes_of_effect_reg_ne (h : firstError i s = none) {j : RegIdx} (hj : (effect i s).reg j ≠ s.reg j) :
    Writes i j := by
  have hreg := fun b hb => register_lt_of_no_error (b := b) h hb
  by_contra hw
  cases i with
  | ldi b v | mul b c | add b c =>
    exact hj (State.setReg_reg_of_ne _ (mt (eq_regOf_iff (hreg b (.head _))).1 hw) _)
  | push b | call b | ret => exact hj (State.setReg_reg_of_ne _ hw _)
  | pop b =>
    obtain ⟨hb, h7⟩ := not_or.1 hw
    exact hj ((State.setReg_reg_of_ne _ h7 _).trans
      (State.setReg_reg_of_ne _ (mt (eq_regOf_iff (hreg b (.head _))).1 hb) _))
  | jeq b | jne b => rw [effect] at hj; split at hj <;> exact hj rfl
  | _ => exact hj rfl

/-! ### What a check and an effect read -/

/-- The checks read memory, the registers and `pc`. -/
theorem firstError_congr {s s' : State} (hm : s.mem = s'.mem) (hr : s.regs = s'.regs) (hp : s.pc = s'.pc)
    (i : Instr) : firstError i s = firstError i s' := by
  cases s
  cases s'
  subst hm hr hp
  cases i <;> rfl

/-- R32, R33, R34: an effect does not read `cause`, `fault_info` or `out`. -/
theorem State.SameCore.effect {s s' : State} (h : s.SameCore s') (i : Instr) :
    (effect i s).SameCore (effect i s') := by
  obtain ⟨hm, hr, hp, hf, hrun⟩ := h
  cases s
  cases s'
  subst hm hr hp hf hrun
  cases i with
  | jeq b | jne b =>
    simp only [Machine.effect]
    split <;> exact ⟨rfl, rfl, rfl, rfl, rfl⟩
  | _ => exact ⟨rfl, rfl, rfl, rfl, rfl⟩

/-- R30: no effect but a conditional branch's is influenced by `fl`. -/
theorem effect_setFl (hq : i.mnemonic ≠ .jeq) (hn : i.mnemonic ≠ .jne) (s : State) (f : Flags) :
    ∃ g, effect i (s.setFl f) = (effect i s).setFl g := by
  cases i with
  | jeq b => exact absurd rfl hq
  | jne b => exact absurd rfl hn
  | cmp a b => exact ⟨compareBytes (s.reg (regOf a)) (s.reg (regOf b)), rfl⟩
  | _ => exact ⟨f, rfl⟩

/-- R30: no effect tells two values of `fl` apart that are both not EQ. -/
theorem effect_setFl_of_ne_eq {f : Flags} (hs : s.fl ≠ .eq) (hf : f ≠ .eq) (i : Instr) :
    ∃ g, effect i (s.setFl f) = (effect i s).setFl g := by
  cases i with
  | jeq b | jne b =>
    refine ⟨f, ?_⟩
    simp only [effect, State.setFl_fl, hs, hf, ne_eq, not_false_eq_true, if_true, if_false]
    rfl
  | _ => exact effect_setFl (by rintro ⟨⟩) (by rintro ⟨⟩) s f

/-- Where the effect is influenced by `fl` in `fl` alone, so is the instruction: the checks do not read it. -/
theorem exec_setFl {f : Flags} (ht : exec i s = .next t)
    (hx : ∃ g, effect i (s.setFl f) = (effect i s).setFl g) : ∃ g, exec i (s.setFl f) = .next (t.setFl g) := by
  have hfe : firstError i (s.setFl f) = firstError i s := firstError_congr rfl rfl rfl i
  obtain ⟨e, he, rfl⟩ | ⟨he, rfl⟩ := exec_next ht
  · exact ⟨f, exec_of_error (hfe.trans he)⟩
  · obtain ⟨g, hg⟩ := hx
    exact ⟨g, by rw [exec_of_no_error (hfe.trans he), hg]⟩

/-- Two register writes in either order: the second one's value counts where they meet. -/
theorem State.setReg_setReg (s : State) (j k : RegIdx) (v x : Byte) :
    (s.setReg j v).setReg k x = (s.setReg k x).setReg j (if j = k then x else v) := by
  by_cases h : j = k
  · subst h; simp [State.setReg]
  · simp [State.setReg, h, Vector.set_comm _ _ (mt Fin.ext h)]

theorem State.setReg_sp_of_ne {j : RegIdx} (h : j ≠ 7) (v : Byte) : (s.setReg j v).sp = s.sp :=
  s.setReg_reg_of_ne h.symm v

theorem State.setReg_setSp {j : RegIdx} (h : j ≠ 7) (v x : Byte) :
    (s.setReg j v).setSp x = (s.setSp x).setReg j v := by
  rw [State.setSp, State.setReg_setReg, if_neg h]

theorem stackLowError_congr {s' : State} (h : s'.sp = s.sp) : stackLowError s' = stackLowError s := by
  rw [stackLowError, stackLowError, h]

theorem stackHighError_congr {s' : State} (h : s'.sp = s.sp) : stackHighError s' = stackHighError s := by
  rw [stackHighError, stackHighError, h]

/-- The stack's checks read no register but `x[7]`. -/
theorem stackError_setReg {j : RegIdx} (hj : ¬ Reads i s.fl j) (v : Byte) :
    stackError i (s.setReg j v) = stackError i s := by
  cases i with
  | push b => exact stackLowError_congr (State.setReg_sp_of_ne (not_or.1 hj).1 v)
  | call b =>
    exact congrArg (Option.or · (returnError s)) (stackLowError_congr (State.setReg_sp_of_ne (not_or.1 hj).1 v))
  | ret => exact stackHighError_congr (State.setReg_sp_of_ne hj v)
  | pop b =>
    refine stackHighError_congr ?_
    rw [State.setReg_loadByte, State.setReg_sp_of_ne hj, State.setReg_setReg, State.setReg_sp_of_ne hj]
  | _ => rfl

theorem firstError_setReg {j : RegIdx} (hj : ¬ Reads i s.fl j) (v : Byte) :
    firstError i (s.setReg j v) = firstError i s := by
  rw [firstError, stackError_setReg hj]; rfl

theorem ne_regOf_of_not {b : Byte} {j : RegIdx} (hb : b.toNat < 8) (hj : ¬ j.val = b.toNat) : regOf b ≠ j :=
  fun h => hj ((eq_regOf_iff hb).1 h.symm)

/-- R24, the column "reads": changing a register that is not listed there changes nothing of an effect but possibly
that register. -/
theorem effect_setReg (h : firstError i s = none) {j : RegIdx} (hj : ¬ Reads i s.fl j) (v : Byte) :
    ∃ w, effect i (s.setReg j v) = (effect i s).setReg j w := by
  have hreg := fun b hb => register_lt_of_no_error (b := b) h hb
  cases i with
  | prn b | jmp b =>
    rw [effect, State.setReg_reg_of_ne _ (ne_regOf_of_not (hreg b (.head _)) hj)]
    exact ⟨v, rfl⟩
  | ldi b x =>
    rw [effect, State.setReg_setReg]
    exact ⟨_, rfl⟩
  | mul a b | add a b =>
    obtain ⟨ha, hb⟩ := not_or.1 hj
    rw [effect, State.setReg_reg_of_ne _ (ne_regOf_of_not (hreg a (.head _)) ha),
      State.setReg_reg_of_ne _ (ne_regOf_of_not (hreg b (.tail _ (.head _))) hb), State.setReg_setReg]
    exact ⟨_, rfl⟩
  | cmp a b =>
    obtain ⟨ha, hb⟩ := not_or.1 hj
    rw [effect, State.setReg_reg_of_ne _ (ne_regOf_of_not (hreg a (.head _)) ha),
      State.setReg_reg_of_ne _ (ne_regOf_of_not (hreg b (.tail _ (.head _))) hb)]
    exact ⟨v, rfl⟩
  | push b | call b =>
    obtain ⟨h7, hb⟩ := not_or.1 hj
    rw [effect, State.setReg_sp_of_ne h7, State.setReg_setSp h7,
      State.setReg_reg_of_ne _ (ne_regOf_of_not (hreg b (.head _)) hb)]
    exact ⟨v, rfl⟩
  | pop b =>
    rw [effect, State.setReg_loadByte, State.setReg_sp_of_ne hj, State.setReg_setReg]
    simp only [State.setReg_sp_of_ne hj, State.setReg_setSp hj]
    exact ⟨_, rfl⟩
  | ret =>
    rw [effect, State.setReg_loadByte, State.setReg_sp_of_ne hj, State.setReg_setSp hj]
    exact ⟨v, rfl⟩
  | jeq b | jne b =>
    rw [effect, effect, State.setReg_fl]
    split
    · rename_i hf
      rw [State.setReg_reg_of_ne _ (ne_regOf_of_not (hreg b (.head _)) fun hb => hj ⟨hf, hb⟩)]
      exact ⟨v, rfl⟩
    · exact ⟨v, rfl⟩
  | hlt => exact ⟨v, rfl⟩

end NormalForm

end Sys2Proof.Machine

/-! SUPPORT. What the decoder and the fetch can answer (30_encoding.md R80, R81, R85; 10_state.md R28). -/

namespace Sys2Proof

variable {m : Mnemonic} {i : Instr} {bs rest : List Byte}

/-- Under a lawful map every mnemonic's byte decodes to it (R84, R85). -/
theorem decodeOpcode_lawful {opc : OpcodeMap} (h : opc.Lawful) (m : Mnemonic) : decodeOpcode opc (opc m) = some m := by
  cases hd : decodeOpcode opc (opc m) with
  | none => exact absurd (beq_self_eq_true (opc m)) (List.find?_eq_none.1 hd m m.mem_all)
  | some n => rw [h n m (decodeOpcode_some hd)]

theorem Instr.length_operandBytes (i : Instr) : i.operandBytes.length = i.mnemonic.operandCount := by
  cases i <;> rfl

theorem takeOne_ok {f : Byte → Instr} (h : takeOne m f bs = .ok i rest) : ∃ r, i = f r ∧ bs = r :: rest := by
  match bs, h with
  | r :: _, rfl => exact ⟨r, rfl, rfl⟩

theorem takeTwo_ok {f : Byte → Byte → Instr} (h : takeTwo m f bs = .ok i rest) :
    ∃ a b, i = f a b ∧ bs = a :: b :: rest := by
  match bs, h with
  | a :: b :: _, rfl => exact ⟨a, b, rfl, rfl⟩

/-- The operands the decoder takes are the instruction's own, and it leaves the rest. -/
theorem decodeOperands_ok (h : decodeOperands m bs = .ok i rest) : i.mnemonic = m ∧ bs = i.operandBytes ++ rest := by
  cases m with
  | ret | hlt => cases h; exact ⟨rfl, rfl⟩
  | ldi | mul | add | cmp => obtain ⟨a, b, rfl, rfl⟩ := takeTwo_ok h; exact ⟨rfl, rfl⟩
  | _ => obtain ⟨r, rfl, rfl⟩ := takeOne_ok h; exact ⟨rfl, rfl⟩

theorem takeOne_short {f : Byte → Instr} (h : bs.length < 1) :
    takeOne m f bs = .missingOperand m (bs.length + 1) := by
  match bs, h with
  | [], _ => rfl

theorem takeTwo_short {f : Byte → Byte → Instr} (h : bs.length < 2) :
    takeTwo m f bs = .missingOperand m (bs.length + 1) := by
  match bs, h with
  | [], _ => rfl
  | [_], _ => rfl

/-- Where an operand byte is missing the decoder names the first one. -/
theorem decodeOperands_short (h : bs.length < m.operandCount) :
    decodeOperands m bs = .missingOperand m (bs.length + 1) := by
  cases m with
  | ret | hlt => cases h
  | ldi | mul | add | cmp => exact takeTwo_short h
  | _ => exact takeOne_short h

/-- Bytes that decode to an instruction begin with its opcode and go on with its operands. -/
theorem decodeWith_ok {opc : OpcodeMap} (h : decodeWith opc bs = .ok i rest) :
    ∃ b, decodeOpcode opc b = some i.mnemonic ∧ bs = b :: (i.operandBytes ++ rest) := by
  match bs, h with
  | b :: tl, h =>
    cases hd : decodeOpcode opc b with
    | none => rw [decodeWith_cons_none hd] at h; cases h
    | some m =>
      rw [decodeWith_cons_some hd] at h
      obtain ⟨rfl, rfl⟩ := decodeOperands_ok h
      exact ⟨b, hd, rfl⟩

end Sys2Proof

namespace Sys2Proof.Machine

variable {opc : OpcodeMap} {unset : FlagsUnsetRead} {s t : State}

theorem State.fetchWindow_eq (s : State) : s.fetchWindow =
    (s.memRead s.pc.toNat).toList ++ (s.memRead (s.pc.toNat + 1)).toList ++ (s.memRead (s.pc.toNat + 2)).toList := by
  rw [State.fetchWindow, List.filterMap_eq_flatMap_toList]
  simp [maxLength, List.range_succ]

theorem State.length_memRead_toList (s : State) (a : Nat) :
    (s.memRead a).toList.length = if a < 256 then 1 else 0 := by
  rw [State.memRead]; split <;> rfl

/-- The window holds the bytes from `pc` to the top of memory, three at most (R28, R80). -/
theorem State.length_fetchWindow (s : State) : s.fetchWindow.length = min 3 (256 - s.pc.toNat) := by
  simp only [State.fetchWindow_eq, List.length_append, State.length_memRead_toList]
  split_ifs <;> omega

theorem State.fetchWindow_cons {b : Byte} (h : s.memRead s.pc.toNat = some b) :
    ∃ tl, s.fetchWindow = b :: tl := by
  rw [State.fetchWindow_eq, h]
  exact ⟨_, rfl⟩

/-- The bytes of a fetched instruction all exist. -/
theorem operands_lt_of_fetchInstr {i : Instr} (h : fetchInstr opc s = .ok i) :
    s.pc.toNat + i.mnemonic.operandCount < 256 := by
  obtain ⟨rest, hd⟩ := fetchInstr_ok_iff.1 h
  obtain ⟨b, -, hw⟩ := decodeWith_ok hd
  have hl := s.length_fetchWindow
  rw [hw, List.length_cons, List.length_append, i.length_operandBytes] at hl
  omega

/-- A fetch above the top of memory (R28). -/
theorem fetchInstr_of_pc_ge (h : 256 ≤ s.pc.toNat) :
    fetchInstr opc s = .error (.outOfBounds .fetch s.pc.toNat) := by
  have hw : s.fetchWindow = [] := List.eq_nil_of_length_eq_zero (by rw [s.length_fetchWindow]; omega)
  rw [fetchInstr, hw, decodeWith_nil]

/-- A recognised opcode whose operand bytes do not all exist (R28). -/
theorem fetchInstr_of_operand_missing (hl : opc.Lawful) {m : Mnemonic} (hm : s.memRead s.pc.toNat = some (opc m))
    (hp : 256 ≤ s.pc.toNat + m.operandCount) : fetchInstr opc s = .error (.outOfBounds .operand 256) := by
  obtain ⟨tl, hw⟩ := State.fetchWindow_cons hm
  have hlt : s.pc.toNat < 256 := not_le.1 fun h => by simp [(s.memRead_eq_none_iff _).2 h] at hm
  have hlen := s.length_fetchWindow
  have h2 := operandCount_le_two m
  rw [hw, List.length_cons] at hlen
  rw [fetchInstr, hw, decodeWith_cons_some (decodeOpcode_lawful hl m), decodeOperands_short (by omega)]
  have h256 : s.pc.toNat + (tl.length + 1) = 256 := by omega
  simp only [h256]
  rfl

/-! ### What FLAGS_UNSET_READ withholds (R183) -/

theorem execUnder_literal_next (i : Instr) (s : State) : ∃ t, execUnder .literal i s = .next t := by
  rw [show execUnder .literal i s = exec i s from execUnder_default i s, exec_eq]
  cases firstError i s with
  | none => exact ⟨_, rfl⟩
  | some e => exact ⟨_, rfl⟩

/-- Under `fault` a conditional branch whose checks pass has no meaning before any comparison. -/
theorem execUnder_withheld {i : Instr} (h : firstError i s = none) (hf : s.fl = .none)
    (hi : i.mnemonic = .jeq ∨ i.mnemonic = .jne) : execUnder .fault i s = .fault .flagsUnset := by
  rw [execUnder_eq, h, State.raiseOr_none, passed, if_pos ⟨rfl, hf, hi⟩]

/-- In every other case an instruction answers a next state. -/
theorem execUnder_fault_cases (i : Instr) (s : State) :
    (firstError i s = none ∧ s.fl = .none ∧ (i.mnemonic = .jeq ∨ i.mnemonic = .jne)) ∨
      ∃ t, execUnder .fault i s = .next t := by
  rw [execUnder_eq]
  cases firstError i s with
  | some e => exact .inr ⟨_, rfl⟩
  | none =>
    by_cases h : s.fl = .none ∧ (i.mnemonic = .jeq ∨ i.mnemonic = .jne)
    · exact .inl ⟨rfl, h⟩
    · exact .inr ⟨_, if_neg fun hc => h hc.2⟩

theorem eq_branch_of_mnemonic {i : Instr} (h : i.mnemonic = .jeq ∨ i.mnemonic = .jne) :
    ∃ b, i.registerOperands = [b] ∧ (i = .jeq b ∨ i = .jne b) := by
  cases i with
  | jeq b => exact ⟨b, rfl, .inl rfl⟩
  | jne b => exact ⟨b, rfl, .inr rfl⟩
  | _ => rcases h with h | h <;> cases h

theorem firstError_branch {b : Byte} (hb : b.toNat < 8) (hp : s.pc.toNat + 1 < 256) :
    firstError (.jeq b) s = none ∧ firstError (.jne b) s = none := by
  have hr : ∀ r ∈ [b], r.toNat < 8 := by simpa using hb
  exact ⟨firstError_eq_none_iff.2 ⟨.inr hp, hr, rfl⟩, firstError_eq_none_iff.2 ⟨.inr hp, hr, rfl⟩⟩

/-- The step is withheld at the branches that `State.BranchesUnset` describes, and by `stepUnder_fault_next` at no
other. -/
theorem stepUnder_of_branchesUnset (h : s.BranchesUnset opc) : stepUnder opc .fault s = .fault .flagsUnset := by
  obtain ⟨hr, hfl, b, hb, hf | hf⟩ := h
  · rw [stepUnder_of_ok hr hf]
    exact execUnder_withheld (firstError_branch hb (operands_lt_of_fetchInstr hf)).1 hfl (.inl rfl)
  · rw [stepUnder_of_ok hr hf]
    exact execUnder_withheld (firstError_branch hb (operands_lt_of_fetchInstr hf)).2 hfl (.inr rfl)

theorem stepUnder_fault_next (hr : s.run = .running) (h : ¬ s.BranchesUnset opc) :
    ∃ t, stepUnder opc .fault s = .next t := by
  cases hf : fetchInstr opc s with
  | error e => exact ⟨_, stepUnder_of_error hr hf⟩
  | ok i =>
    rw [stepUnder_of_ok hr hf]
    refine (execUnder_fault_cases i s).resolve_left fun ⟨he, hfl, hi⟩ => h ⟨hr, hfl, ?_⟩
    obtain ⟨b, hb, rfl | rfl⟩ := eq_branch_of_mnemonic hi
    · exact ⟨b, register_lt_of_no_error he (.head _), .inl hf⟩
    · exact ⟨b, register_lt_of_no_error he (.head _), .inr hf⟩

theorem stepUnder_literal_next (opc : OpcodeMap) (hr : s.run = .running) :
    ∃ t, stepUnder opc .literal s = .next t := by
  cases hf : fetchInstr opc s with
  | error e => exact ⟨_, stepUnder_of_error hr hf⟩
  | ok i => rw [stepUnder_of_ok hr hf]; exact execUnder_literal_next i s

/-! ### What a step does not read (R32, R33, R34) -/

theorem fetchInstr_congr {s s' : State} (hm : s.mem = s'.mem) (hp : s.pc = s'.pc) :
    fetchInstr opc s = fetchInstr opc s' := by
  cases s
  cases s'
  subst hm hp
  rfl

theorem State.SameCore.raise {s s' : State} (h : s.SameCore s') (e : FaultInfo) :
    (s.raise e).SameCore (s'.raise e) := by
  obtain ⟨hm, hr, hp, hf, -⟩ := h
  exact ⟨hm, hr, hp, hf, rfl⟩

theorem State.SameCore.execUnder {s s' : State} (h : s.SameCore s') {i : Instr}
    (hx : execUnder unset i s = .next t) : ∃ t', execUnder unset i s' = .next t' ∧ t.SameCore t' := by
  have ⟨hm, hr, hp, hf, _⟩ := h
  rw [execUnder_eq] at hx ⊢
  rw [← firstError_congr hm hr hp]
  cases he : firstError i s with
  | some e =>
    rw [he] at hx
    cases hx
    exact ⟨_, rfl, h.raise e⟩
  | none =>
    rw [he, State.raiseOr_none, passed] at hx
    rw [State.raiseOr_none, passed, ← hf]
    split at hx
    · cases hx
    · rename_i hw
      cases hx
      exact ⟨_, if_neg hw, h.effect i⟩

theorem State.SameCore.stepUnder {s s' : State} (h : s.SameCore s') (hx : stepUnder opc unset s = .next t) :
    ∃ t', stepUnder opc unset s' = .next t' ∧ t.SameCore t' := by
  have ⟨hm, _, hp, _, hrun⟩ := h
  obtain ⟨hr, ⟨i, hf, hx⟩ | ⟨e, hf, rfl⟩⟩ := stepUnder_next hx
  · rw [stepUnder_of_ok (hrun.symm.trans hr) ((fetchInstr_congr hm hp).symm.trans hf)]
    exact h.execUnder hx
  · rw [stepUnder_of_error (hrun.symm.trans hr) ((fetchInstr_congr hm hp).symm.trans hf)]
    exact ⟨_, rfl, h.raise e⟩

/-- What an instruction answers does not depend on `out`: the values it appends and all else are the same. -/
theorem execUnder_out (unset : FlagsUnsetRead) (i : Instr) (s : State) :
    (∃ f, ∀ o, execUnder unset i { s with out := o } = .fault f) ∨
      ∃ (t : State) (new : List Byte), ∀ o,
        execUnder unset i { s with out := o } = .next { t with out := o ++ new } := by
  have hfe : ∀ o, firstError i { s with out := o } = firstError i s := fun o => firstError_congr rfl rfl rfl i
  cases he : firstError i s with
  | some e => exact .inr ⟨s.raise e, [], fun o => by rw [execUnder_eq, hfe, he, List.append_nil]; rfl⟩
  | none =>
    by_cases hw : unset = .fault ∧ s.fl = .none ∧ (i.mnemonic = .jeq ∨ i.mnemonic = .jne)
    · exact .inl ⟨_, fun o => by rw [execUnder_eq, hfe, he]; exact if_pos hw⟩
    · exact .inr ⟨effect i s, printed i s, fun o => by
        rw [execUnder_eq, hfe, he, State.raiseOr_none, passed, effect_out]; exact if_neg hw⟩

theorem RunState.running_or_halted (r : RunState) : r = .running ∨ r = .halted := by
  cases r
  · exact .inl rfl
  · exact .inr rfl

/-- The same of a whole step. -/
theorem stepUnder_out (opc : OpcodeMap) (unset : FlagsUnsetRead) (s : State) :
    (∃ f, ∀ o, stepUnder opc unset { s with out := o } = .fault f) ∨
      ∃ (t : State) (new : List Byte), ∀ o,
        stepUnder opc unset { s with out := o } = .next { t with out := o ++ new } := by
  have hfo : ∀ o, fetchInstr opc { s with out := o } = fetchInstr opc s := fun o => fetchInstr_congr rfl rfl
  obtain hr | hr := s.run.running_or_halted
  · cases hf : fetchInstr opc s with
    | error e =>
      refine .inr ⟨s.raise e, [], fun o => ?_⟩
      rw [List.append_nil, stepUnder_of_error (s := { s with out := o }) hr ((hfo o).trans hf)]
      rfl
    | ok i =>
      have hstep := fun o => stepUnder_of_ok (unset := unset) (s := { s with out := o }) hr ((hfo o).trans hf)
      simpa only [hstep] using execUnder_out unset i s
  · exact .inl ⟨_, fun o => stepUnder_of_halted hr⟩

/-! ### The invariant -/

theorem FaultInfo.cause_ne (e : FaultInfo) : e.cause ≠ .noneYet ∧ e.cause ≠ .hlt := by
  cases e <;> exact ⟨nofun, nofun⟩

theorem State.Inv.raise (h : s.Inv) (e : FaultInfo) : (s.raise e).Inv where
  mem_wf := h.mem_wf
  pc_le := h.pc_le
  halted_iff := by simp [e.cause_ne.1]
  no_info := by simp [e.cause_ne.1, e.cause_ne.2]
  info_cause := by simp

/-- A running state that meets the invariant has no record, so a normal halt leaves none (R33). -/
theorem State.Inv.haltNormally (h : s.Inv) (hr : s.run = .running) : s.haltNormally.Inv := by
  have hc : s.cause = .noneYet := by simpa [hr] using h.halted_iff
  have hn : s.faultInfo = none := h.no_info.2 (.inl hc)
  exact ⟨h.mem_wf, h.pc_le, by simp, by simp [hn], by simp [hn]⟩

theorem State.Inv.effect {i : Instr} (h : s.Inv) (hr : s.run = .running) (he : firstError i s = none) :
    (effect i s).Inv := by
  by_cases hi : i = .hlt
  · subst hi
    exact h.haltNormally hr
  · obtain ⟨hrun, hcause, hinfo⟩ := effect_control (s := s) hi
    refine ⟨effect_mem_wf i h.mem_wf, effect_pc_le he h.pc_le, ?_, ?_, ?_⟩
    · rw [hrun, hcause]; exact h.halted_iff
    · rw [hinfo, hcause]; exact h.no_info
    · rw [hinfo, hcause]; exact h.info_cause

end Sys2Proof.Machine

/-! ## The obligations of 10_state.md -/

namespace Sys2Proof.Proofs

open Sys2Proof.Machine

/-- Settles O50: an error changes only the control state, and together; an effect keeps memory's form and the range of
`pc`, and HLT, the one effect on the control state, starts from the empty record of a running state. -/
theorem stepKeepsTheInvariant : Obligations.StepKeepsTheInvariant := by
  intro opc unset s t hs ht
  obtain ⟨hr, ⟨e, rfl⟩ | ⟨i, -, he, rfl⟩⟩ := stepUnder_next_effect ht
  · exact hs.raise e
  · exact hs.effect hr he

/-- Settles O11: only a withheld branch keeps a running state from a next one. -/
theorem stepAnswersExactlyWhenRunning : Obligations.StepAnswersExactlyWhenRunning := fun opc _ =>
  ⟨stepUnder_literal_next opc, stepUnder_fault_next, stepUnder_of_branchesUnset,
    fun hr _ => stepUnder_of_halted hr⟩

/-- Settles O13: the fetch's own errors, each taken by the step. -/
theorem noWrapPastTheTopOfMemory : Obligations.NoWrapPastTheTopOfMemory := fun _ hl _ _ hr =>
  ⟨fun hp => stepUnder_of_error hr (fetchInstr_of_pc_ge hp),
    fun _ hm hp => stepUnder_of_error hr (fetchInstr_of_operand_missing hl hm hp)⟩

/-- Settles O16: once the operand bytes exist, the first bad register byte is the first error. -/
theorem invalidRegisterIndexRaises : Obligations.InvalidRegisterIndexRaises := by
  intro i s b hb hp
  refine exec_of_error (e := .outOfBounds .regIdx b.toNat) ?_
  rw [firstError, operandError, if_pos (.inr (Nat.lt_succ_of_le hp)), registerError, hb]
  rfl

/-- Settles O35: the checks and the effect of an instruction, each against the two columns of R24. -/
theorem registersAreAccessedAsListed : Obligations.RegistersAreAccessedAsListed := by
  constructor
  · intro i s t j ht hj
    obtain ⟨e, -, rfl⟩ | ⟨he, rfl⟩ := exec_next ht
    · exact absurd rfl hj
    · exact writes_of_effect_reg_ne he hj
  · intro i s t j v hj ht
    have hfe := firstError_setReg hj v
    obtain ⟨e, he, rfl⟩ | ⟨he, rfl⟩ := exec_next ht
    · exact ⟨v, exec_of_error (hfe.trans he)⟩
    · obtain ⟨w, hw⟩ := effect_setReg he hj v
      exact ⟨w, by rw [exec_of_no_error (hfe.trans he), hw]⟩

/-- Settles O36: an error and HLT halt and leave `pc`; every other completion keeps the run going, at the table's
value. -/
theorem pcFollowsTheTable : Obligations.PcFollowsTheTable := by
  intro i s t hr ht
  obtain ⟨e, -, rfl⟩ | ⟨he, rfl⟩ := exec_next ht
  · exact ⟨nofun, fun _ => rfl⟩
  · by_cases hi : i = .hlt
    · subst hi
      exact ⟨nofun, fun _ => rfl⟩
    · refine ⟨fun _ => nextPc_effect he hi, fun hh => ?_⟩
      rw [(effect_control hi).1, hr] at hh
      cases hh

/-- Settles O38: no check reads `fl` and no error writes it; of the effects only CMP's writes it, only the branches'
read it, and they read no more than whether it is EQ. -/
theorem onlyCompareWritesFlags : Obligations.OnlyCompareWritesFlags := by
  refine ⟨fun i s t ht hf => ?_, fun i s t f hq hn ht => exec_setFl ht (effect_setFl hq hn s f),
    fun i s t hs ht => exec_setFl ht (effect_setFl_of_ne_eq (by rw [hs]; decide) (by decide) i)⟩
  obtain ⟨e, -, rfl⟩ | ⟨-, rfl⟩ := exec_next ht
  · exact absurd rfl hf
  · exact not_not.1 fun hi => hf (effect_fl hi)

/-- Settles O39: an error leaves `out`, an effect appends what PRN prints, and neither the fetch nor an instruction
reads it. -/
theorem outputGrowsOnlyByPrn : Obligations.OutputGrowsOnlyByPrn := by
  intro opc unset s
  refine ⟨fun t ht => ?_, fun t b ht hf hr => ?_, fun t o ht => ?_, fun f o hf => ?_, fun i t ht => ?_⟩
  · obtain ⟨-, ⟨e, rfl⟩ | ⟨i, hf, he, rfl⟩⟩ := stepUnder_next_effect ht
    · exact .inl rfl
    · refine (effect_out_cases he).imp_right ?_
      rintro ⟨b, v, rfl, hv⟩
      exact ⟨b, v, hf, hv⟩
  · obtain ⟨-, ⟨e, rfl⟩ | ⟨i, hf', he, rfl⟩⟩ := stepUnder_next_effect ht
    · cases hr
    · cases hf.symm.trans hf'
      exact effect_prn_out he
  · obtain ⟨f, hf⟩ | ⟨u, new, hu⟩ := stepUnder_out opc unset s
    · cases (hf s.out).symm.trans ht
    · cases (hu s.out).symm.trans ht
      exact ⟨new, rfl, hu o⟩
  · obtain ⟨f', hf'⟩ | ⟨u, new, hu⟩ := stepUnder_out opc unset s
    · cases (hf' s.out).symm.trans hf
      exact hf' o
    · cases (hu s.out).symm.trans hf
  · obtain ⟨e, -, rfl⟩ | ⟨he, rfl⟩ := exec_next ht
    · exact .inl rfl
    · exact effect_out_cases he

/-- Settles O40: an error, HLT, or an effect that leaves the control state. -/
theorem controlStateChangesOnlyByHaltOrError : Obligations.ControlStateChangesOnlyByHaltOrError := by
  intro i s t ht
  obtain ⟨e, -, rfl⟩ | ⟨-, rfl⟩ := exec_next ht
  · exact .inr (.inr ⟨e, rfl, rfl, rfl⟩)
  · by_cases hi : i = .hlt
    · subst hi
      exact .inr (.inl ⟨rfl, rfl, rfl, rfl⟩)
    · exact .inl (effect_control hi)

/-- Settles O47: CMP writes a value that is not NONE, and nothing else writes `fl`; so every step keeps it. -/
theorem flagsStaySetOnceCompared : Obligations.FlagsStaySetOnceCompared := by
  intro opc unset s t h
  refine Reaches.keeps (P := fun u => u.fl ≠ .none) (fun t u hfl hu => ?_) h
  obtain ⟨-, ⟨e, rfl⟩ | ⟨i, -, -, rfl⟩⟩ := stepUnder_next_effect hu
  · exact hfl
  · exact effect_fl_ne_none hfl

/-- Settles O48: neither the fetch nor an instruction's checks nor its effect read them. -/
theorem diagnosticsAndOutputAreNeverRead : Obligations.DiagnosticsAndOutputAreNeverRead :=
  fun _ _ _ _ _ h hx => h.stepUnder hx

/-- Settles O1: the empty list of cells reads as 0 at every address, and reset for SP_INIT is reset for 0 with `x[7]`
written. -/
theorem resetLeavesTheStatedValues : Obligations.ResetLeavesTheStatedValues := by
  have hzero : ∀ i : RegIdx, (State.resetWith 0).reg i = 0 := by decide
  refine ⟨fun sp => ⟨fun a ha => if_pos (Nat.lt_succ_of_le ha), fun i hi => ?_, rfl, rfl, rfl, rfl, rfl, rfl, rfl,
    rfl⟩, spInit, rfl⟩
  calc (State.resetWith sp).reg i = ((State.resetWith 0).setReg 7 sp).reg i := rfl
    _ = (State.resetWith 0).reg i := State.setReg_reg_of_ne _ hi sp
    _ = 0 := hzero i

/-- Settles O14: the operand fetches are the first check. -/
theorem execChecksItsOperandAddresses : Obligations.ExecChecksItsOperandAddresses := by
  intro i s hp hn
  have hmax : max (s.pc.toNat + 1) 256 = 256 := max_eq_right (Nat.succ_le_succ hp)
  refine exec_of_error (e := .outOfBounds .operand 256) ?_
  rw [firstError, operandError, if_neg (by omega), hmax]
  rfl

/-- Settles O49: reset has no cells, `pc` 0, no cause and no record. -/
theorem invariantHoldsAtReset : Obligations.InvariantHoldsAtReset := fun _ =>
  ⟨Memory.wf_nil, Nat.zero_le _, ⟨nofun, fun h => absurd rfl h⟩, ⟨fun _ => .inl rfl, fun _ => rfl⟩, nofun⟩

end Sys2Proof.Proofs

/-! SUPPORT. Bytes in memory (20_memory.md): the fetch reads the cells from `pc` on, the image load writes the cells
from 0 on, and PUSH and CALL write the one cell under the stack pointer. -/

namespace Sys2Proof

variable {opc : OpcodeMap}

/-- The bytes of an instruction, whatever stands after them, decode to it (R81, R84, R85). -/
theorem decodeWith_encodeWith_append (hl : opc.Lawful) (i : Instr) (rest : List Byte) :
    decodeWith opc (encodeWith opc i ++ rest) = .ok i rest := by
  rw [encodeWith, List.cons_append, decodeWith_cons_some (decodeOpcode_lawful hl i.mnemonic)]
  cases i <;> rfl

/-- Bytes that decode to an instruction are its own, and the rest. -/
theorem decodeWith_ok_eq_append {bs rest : List Byte} {i : Instr} (h : decodeWith opc bs = .ok i rest) :
    bs = encodeWith opc i ++ rest := by
  obtain ⟨b, hb, rfl⟩ := decodeWith_ok h
  rw [encodeWith, decodeOpcode_some hb]
  rfl

theorem length_encodeWith_le (opc : OpcodeMap) (i : Instr) : (encodeWith opc i).length ≤ 3 := by
  rw [encodeWith, List.length_cons, i.length_operandBytes]
  exact Nat.succ_le_succ (Machine.operandCount_le_two _)

theorem decodeOpcode_eq_none {b : Byte} (h : ∀ m, b ≠ opc m) : decodeOpcode opc b = none :=
  Option.eq_none_iff_forall_ne_some.2 fun m hm => h m (decodeOpcode_some hm).symm

end Sys2Proof

namespace Sys2Proof.Machine

variable {opc : OpcodeMap} {unset : FlagsUnsetRead} {s t : State} {i : Instr}

/-- The cells from the address `a` on hold the bytes `bs`, in ascending order (R56). -/
def State.HoldsAt (s : State) (a : Nat) (bs : List Byte) : Prop :=
  ∀ k x, bs[k]? = some x → s.memRead (a + k) = some x

theorem State.holdsAt_nil (s : State) (a : Nat) : s.HoldsAt a [] := nofun

theorem State.holdsAt_cons {a : Nat} {b : Byte} {bs : List Byte} :
    s.HoldsAt a (b :: bs) ↔ s.memRead a = some b ∧ s.HoldsAt (a + 1) bs := by
  refine ⟨fun h => ⟨h 0 b rfl, fun k x hk => ?_⟩, fun ⟨h0, h⟩ k x hk => ?_⟩
  · rw [Nat.add_right_comm]
    exact h (k + 1) x hk
  · cases k with
    | zero => cases hk; exact h0
    | succ k => rw [← Nat.succ_add_eq_add_succ]; exact h k x hk

/-! ### The fetch (R56, R81, R110) -/

/-- The `k`-th byte of the window is the one at `pc + k`, if there is one. -/
theorem State.getElem?_fetchWindow (s : State) {k : Nat} (hk : k < 3) :
    s.fetchWindow[k]? = s.memRead (s.pc.toNat + k) := by
  obtain h | h | h | h : s.pc.toNat + 2 < 256 ∨ s.pc.toNat = 254 ∨ s.pc.toNat = 255 ∨ 256 ≤ s.pc.toNat := by omega
  · have h0 : s.pc.toNat < 256 := by omega
    have h1 : s.pc.toNat + 1 < 256 := by omega
    interval_cases k <;> simp [State.fetchWindow_eq, State.memRead, h, h0, h1]
  · interval_cases k <;> simp [State.fetchWindow_eq, State.memRead, h]
  · interval_cases k <;> simp [State.fetchWindow_eq, State.memRead, h]
  · have hn : ∀ j, s.memRead (s.pc.toNat + j) = none := fun j => (s.memRead_eq_none_iff _).2 (Nat.le_add_right_of_le h)
    rw [hn, List.getElem?_eq_none (by rw [s.length_fetchWindow]; omega)]

/-- The fetch gives an instruction only where the cells from `pc` on hold its bytes. -/
theorem holdsAt_of_fetchInstr (h : fetchInstr opc s = .ok i) : s.HoldsAt s.pc.toNat (encodeWith opc i) := by
  obtain ⟨rest, hd⟩ := fetchInstr_ok_iff.1 h
  intro k x hk
  have hlt := (List.getElem?_eq_some_iff.1 hk).1
  rw [← s.getElem?_fetchWindow (hlt.trans_le (length_encodeWith_le opc i)), decodeWith_ok_eq_append hd,
    List.getElem?_append_left hlt, hk]

/-- And it does give it there, under a lawful opcode map. -/
theorem fetchInstr_of_holdsAt (hl : opc.Lawful) (h : s.HoldsAt s.pc.toNat (encodeWith opc i)) :
    fetchInstr opc s = .ok i := by
  have hpre : encodeWith opc i <+: s.fetchWindow := List.prefix_iff_getElem?.2 fun k hk => by
    rw [s.getElem?_fetchWindow (hk.trans_le (length_encodeWith_le opc i))]
    exact h k _ (List.getElem?_eq_getElem hk)
  obtain ⟨rest, hw⟩ := hpre
  exact fetchInstr_ok_iff.2 ⟨rest, by rw [← hw, decodeWith_encodeWith_append hl]⟩

/-- A byte at `pc` that is no opcode (R113). -/
theorem fetchInstr_of_unrecognized {b : Byte} (hb : s.memRead s.pc.toNat = some b) (h : ∀ m, b ≠ opc m) :
    fetchInstr opc s = .error (.unrecognizedOpcode s.pc b) := by
  obtain ⟨tl, hw⟩ := State.fetchWindow_cons hb
  rw [fetchInstr, hw, decodeWith_cons_none (decodeOpcode_eq_none h)]

/-! ### The cells an instruction changes (R54) -/

/-- An effect changes no cell but, in PUSH and CALL, the one under the stack pointer. -/
theorem memRead_effect {a : Nat} (h : i.mnemonic = .push ∨ i.mnemonic = .call → a ≠ (s.sp - 1).toNat) :
    (effect i s).memRead a = s.memRead a := by
  cases i with
  | push b => exact (State.memRead_storeByte _ _ _ a).trans (if_neg (h (.inl rfl)))
  | call b => exact (State.memRead_storeByte _ _ _ a).trans (if_neg (h (.inr rfl)))
  | jeq b | jne b => rw [effect]; split <;> rfl
  | _ => rfl

theorem memRead_of_exec_next {a : Nat} (hx : exec i s = .next t)
    (h : i.mnemonic = .push ∨ i.mnemonic = .call → a ≠ (s.sp - 1).toNat) : t.memRead a = s.memRead a := by
  obtain ⟨e, -, rfl⟩ | ⟨-, rfl⟩ := exec_next hx
  · rfl
  · exact memRead_effect h

/-- Reading a cell after the store of PUSH and CALL, at a stack pointer that is not 0. -/
theorem memRead_storeByte_under_sp (hsp : s.sp ≠ 0) (v : Byte) (a : Nat) :
    ((s.setSp (s.sp - 1)).storeByte (s.sp - 1) v).memRead a =
      if a = s.sp.toNat - 1 then some v else s.memRead a := by
  rw [State.memRead_storeByte, State.setReg_memRead, toNat_sub_one hsp]

/-- The register that PUSH and CALL read is read after the decrement (D29). -/
theorem State.reg_regOf_setSp {b : Byte} (h : b.toNat < 8) (v : Byte) :
    (s.setSp v).reg (regOf b) = if b = 7 then v else s.reg ⟨b.toNat, h⟩ := by
  have h7 : (⟨b.toNat, h⟩ : RegIdx) = 7 ↔ b = 7 := by rw [Fin.ext_iff, ← BitVec.toNat_inj]; rfl
  rw [State.setReg_reg, regOf_of_lt h]
  simp only [h7]

/-! ### The step at an encoded instruction (R110) -/

theorem stepUnder_of_holdsAt (hl : opc.Lawful) (hr : s.run = .running)
    (h : s.HoldsAt s.pc.toNat (encodeWith opc i)) : stepUnder opc unset s = execUnder unset i s :=
  stepUnder_of_ok hr (fetchInstr_of_holdsAt hl h)

theorem stepUnder_of_unrecognized (hr : s.run = .running) {b : Byte} (hb : s.memRead s.pc.toNat = some b)
    (h : ∀ m, b ≠ opc m) : stepUnder opc unset s = .next (s.raise (.unrecognizedOpcode s.pc b)) :=
  stepUnder_of_error hr (fetchInstr_of_unrecognized hb h)

/-- The parameter FLAGS_UNSET_READ withholds nothing but conditional branches (R183). -/
theorem execUnder_of_no_error (he : firstError i s = none) (hq : i.mnemonic ≠ .jeq) (hn : i.mnemonic ≠ .jne) :
    execUnder unset i s = .next (effect i s) := by
  rw [execUnder_eq, he, State.raiseOr_none, passed, if_neg fun h => h.2.2.elim hq hn]

/-- The step at an encoded instruction that completes and is no conditional branch. -/
theorem stepUnder_of_no_error (hl : opc.Lawful) (hr : s.run = .running)
    (h : s.HoldsAt s.pc.toNat (encodeWith opc i)) (he : firstError i s = none) (hq : i.mnemonic ≠ .jeq)
    (hn : i.mnemonic ≠ .jne) : stepUnder opc unset s = .next (effect i s) :=
  (stepUnder_of_holdsAt hl hr h).trans (execUnder_of_no_error he hq hn)

/-- A read that gives a byte was at a valid address (R51, R52). -/
theorem State.lt_of_memRead {a : Nat} {b : Byte} (h : s.memRead a = some b) : a < 256 :=
  not_le.1 fun hge => by simp [(s.memRead_eq_none_iff _).2 hge] at h

theorem firstError_push {b : Byte} (hb : b.toNat < 8) (hp : s.pc.toNat + 1 < 256) (hsp : s.sp ≠ 0) :
    firstError (.push b) s = none :=
  firstError_eq_none_iff.2 ⟨.inr hp, by simpa [Instr.registerOperands] using hb, if_neg hsp⟩

theorem firstError_call {b : Byte} (hb : b.toNat < 8) (hp : s.pc.toNat + 2 < 256) (hsp : s.sp ≠ 0) :
    firstError (.call b) s = none :=
  firstError_eq_none_iff.2 ⟨.inr (Nat.lt_of_succ_lt hp), by simpa [Instr.registerOperands] using hb, by
    rw [stackError, stackLowError, if_neg hsp, returnError, if_pos hp]; rfl⟩

/-! ### The image load (R66) -/

theorem imageOk_iff (img : List Nat) : imageOk img = true ↔ img.length ≤ 256 ∧ ∀ n ∈ img, n ≤ 255 := by
  simp [imageOk]

theorem State.storeBytes_cons {a : Nat} (ha : a < 256) (b : Byte) (bs : List Byte) :
    s.storeBytes a (b :: bs) = (s.setCell a b).storeBytes (a + 1) bs := by
  rw [State.storeBytes, State.memWrite, if_pos ha, Option.getD_some]

/-- Bytes stored from `a` on change no cell below `a` or past the last one, and nothing but memory. -/
theorem State.storeBytes_frame {bs : List Byte} {a : Nat} (h : a + bs.length ≤ 256) :
    (∀ n, n < a ∨ a + bs.length ≤ n → (s.storeBytes a bs).memRead n = s.memRead n) ∧
      s.storeBytes a bs = { s with mem := (s.storeBytes a bs).mem } := by
  induction bs generalizing s a with
  | nil => exact ⟨fun _ _ => rfl, rfl⟩
  | cons b bs ih =>
    rw [List.length_cons] at h ⊢
    have ha : a < 256 := by omega
    obtain ⟨hcells, hrest⟩ := ih (s := s.setCell a b) (a := a + 1) (by omega)
    rw [State.storeBytes_cons ha]
    refine ⟨fun n hn => ?_, hrest⟩
    rw [hcells n (by omega), State.memRead_setCell s b ha, if_neg (by omega)]

/-- The bytes stored from `a` on stand there. -/
theorem State.storeBytes_holdsAt {bs : List Byte} {a : Nat} (h : a + bs.length ≤ 256) :
    (s.storeBytes a bs).HoldsAt a bs := by
  induction bs generalizing s a with
  | nil => exact State.holdsAt_nil _ a
  | cons b bs ih =>
    rw [List.length_cons] at h
    have ha : a < 256 := by omega
    have h' : a + 1 + bs.length ≤ 256 := by omega
    rw [State.storeBytes_cons ha]
    refine State.holdsAt_cons.2 ⟨?_, ih h'⟩
    rw [(State.storeBytes_frame h').1 a (.inl (Nat.lt_succ_self a)), State.memRead_setCell s b ha, if_pos rfl]

/-- The bytes of an image within its contract, stored from address 0 on, stand at their own numbers. -/
theorem State.memRead_storeBytes_image {img : List Nat} (hl : img.length ≤ 256) {n v : Nat} (hv : img[n]? = some v) :
    (s.storeBytes 0 (img.map (BitVec.ofNat 8))).memRead n = some (BitVec.ofNat 8 v) := by
  have hfit : 0 + (img.map (BitVec.ofNat 8)).length ≤ 256 := by simpa using hl
  have hn := State.storeBytes_holdsAt (s := s) hfit n (BitVec.ofNat 8 v) (by rw [List.getElem?_map, hv]; rfl)
  rwa [Nat.zero_add] at hn

/-- What the image load answers when it answers a next state. -/
theorem loadImage_next {img : List Nat} (h : loadImage img s = .next t) :
    img.length ≤ 256 ∧ t = s.storeBytes 0 (img.map (BitVec.ofNat 8)) := by
  rw [loadImage] at h
  split at h
  · rename_i hok
    cases h
    exact ⟨((imageOk_iff img).1 hok).1, rfl⟩
  · cases h

end Sys2Proof.Machine

/-! ## The obligations of 20_memory.md -/

namespace Sys2Proof.Proofs

open Sys2Proof.Machine

/-- Settles O9: a fetched instruction's bytes stand from `pc` on, a loaded image's from 0 on. -/
theorem instructionBytesAscend : Obligations.InstructionBytesAscend := by
  refine ⟨fun opc s i hf => ?_, fun opc s p q hf => ?_, fun sp img s hs n v hv => ?_⟩
  · exact State.holdsAt_cons.1 (holdsAt_of_fetchInstr hf)
  · have hpair : s.HoldsAt (s.pc.toNat + 1) [p, q] := by
      obtain hf | hf | hf | hf := hf <;> exact (State.holdsAt_cons.1 (holdsAt_of_fetchInstr hf)).2
    exact ⟨hpair 0 p rfl, hpair 1 q rfl⟩
  · obtain ⟨hl, rfl⟩ := loadImage_next hs
    exact State.memRead_storeBytes_image hl hv

/-- Settles O37: an error changes no cell, an effect only the one of PUSH and CALL. -/
theorem onlyPushAndCallStore : Obligations.OnlyPushAndCallStore :=
  ⟨fun _ _ _ hx _ ha => memRead_of_exec_next hx fun _ => ha, fun _ _ _ hx _ ha => memRead_of_exec_next hx fun _ => ha,
    fun _ _ _ hp hc hx _ => memRead_of_exec_next hx fun h => (h.elim hp hc).elim⟩

/-- Settles O41: the bound of the contract, and a read after a cell write. -/
theorem memoryContract : Obligations.MemoryContract := by
  intro s a v
  refine ⟨fun ha => ⟨if_neg (not_lt.2 ha), if_neg (not_lt.2 ha)⟩, fun ha => ?_⟩
  have ha : a < 256 := Nat.lt_succ_of_le ha
  refine ⟨⟨_, if_pos ha⟩, s.setCell a v, if_pos ha, ?_, fun b hb => ?_, rfl⟩
  · rw [State.memRead_setCell s v ha, if_pos rfl]
  · rw [State.memRead_setCell s v ha, if_neg hb]

/-- Settles O42: what is stored from address 0 on, and the two halves of the contract. -/
theorem imageLoadDepositsTheBytes : Obligations.ImageLoadDepositsTheBytes := by
  refine fun img s => ⟨fun hl hb => ?_, fun h => if_neg fun hok => ?_⟩
  · have hfit : 0 + (img.map (BitVec.ofNat 8)).length ≤ 256 := by simpa using hl
    obtain ⟨hcells, hrest⟩ := State.storeBytes_frame (s := s) hfit
    refine ⟨_, if_pos ((imageOk_iff img).2 ⟨hl, hb⟩), fun n v => State.memRead_storeBytes_image hl,
      fun n hn => hcells n (.inr ?_), hrest⟩
    rwa [Nat.zero_add, List.length_map]
  · obtain ⟨hl, hb⟩ := (imageOk_iff img).1 hok
    obtain h | ⟨n, hn, hlt⟩ := h
    · exact not_lt.2 hl h
    · exact not_lt.2 (hb n hn) hlt

/-- Settles O43: PUSH and CALL write the cell under the stack pointer in the state that the next fetch reads. -/
theorem storedByteIsFetchedByTheNextStep : Obligations.StoredByteIsFetchedByTheNextStep := by
  intro opc hl unset b s h hr hsp hb v target next htarget hcase
  have hp := State.lt_of_memRead hb
  have hholds : ∀ {x : Byte}, s.memRead s.pc.toNat = some x → s.HoldsAt s.pc.toNat [x, b] := fun hx =>
    State.holdsAt_cons.2 ⟨hx, State.holdsAt_cons.2 ⟨hb, State.holdsAt_nil _ _⟩⟩
  rw [← State.reg_regOf_setSp h] at htarget
  have hstep : ∃ t, stepUnder opc unset s = .next t ∧ t.run = .running ∧ t.pc.toNat = next ∧
      ∀ a, t.memRead a = if a = (s.reg 7).toNat - 1 then some v else s.memRead a := by
    obtain ⟨hop, rfl, rfl⟩ | ⟨hop, hv, rfl⟩ := hcase
    · refine ⟨effect (.push b) s, stepUnder_of_no_error hl hr (hholds hop) (firstError_push h hp hsp) nofun nofun, hr,
        advance_pc_toNat (n := 2) (Nat.succ_le_of_lt hp), ?_⟩
      rw [htarget]
      exact memRead_storeByte_under_sp hsp _
    · have hra : s.pc.toNat + 2 < 256 := hv ▸ v.isLt
      have hofNat : BitVec.ofNat 8 (s.pc.toNat + 2) = v := by rw [← hv, BitVec.ofNat_toNat, BitVec.setWidth_eq]
      refine ⟨effect (.call b) s, stepUnder_of_no_error hl hr (hholds hop) (firstError_call h hra hsp) nofun nofun, hr,
        by rw [effect, jumpTo_pc_toNat, htarget], ?_⟩
      rw [← hofNat]
      exact memRead_storeByte_under_sp hsp _
  obtain ⟨t, ht, hrun, rfl, hmem⟩ := hstep
  refine ⟨t, ht, rfl, hmem, fun i hi => ?_, fun hcell hv => ?_⟩
  · exact stepUnder_of_holdsAt hl hrun fun k x hk => (hmem _).trans (hi k x hk)
  · exact stepUnder_of_unrecognized hrun ((hmem _).trans (if_pos hcell)) hv

/-- Settles O44: a step changes at most the cell `x[7] - 1`, which is not below `n`. -/
theorem stepsLeaveTheCellsBelowTheStack : Obligations.StepsLeaveTheCellsBelowTheStack := by
  intro opc unset s t n ht hn a ha
  obtain ⟨-, ⟨e, rfl⟩ | ⟨i, -, -, rfl⟩⟩ := stepUnder_next_effect ht
  · rfl
  · refine memRead_effect fun _ hcell => ?_
    have hsp : s.reg 7 ≠ 0 := fun h0 => Nat.not_succ_le_zero n (by rwa [h0] at hn)
    have hlow : (s.reg 7 - 1).toNat = (s.reg 7).toNat - 1 := toNat_sub_one hsp
    rw [hlow] at hcell
    omega

end Sys2Proof.Proofs

/-! SUPPORT. Which bytes are opcodes, and what an opcode byte fixes (30_encoding.md R80, R85). -/

namespace Sys2Proof

variable {opc : OpcodeMap} {m : Mnemonic} {b : Byte} {i : Instr} {bs rest : List Byte}

/-- R85: under a lawful map a byte decodes to the one mnemonic that has it. -/
theorem decodeOpcode_eq_some_iff (hl : opc.Lawful) : decodeOpcode opc b = some m ↔ b = opc m :=
  ⟨fun h => (decodeOpcode_some h).symm, fun h => h ▸ decodeOpcode_lawful hl m⟩

/-- R85: a byte is unrecognised when no mnemonic has it, lawful map or not. -/
theorem decodeOpcode_eq_none_iff : decodeOpcode opc b = none ↔ ∀ m, b ≠ opc m := by
  refine ⟨fun h m hb => ?_, decodeOpcode_eq_none⟩
  exact List.find?_eq_none.1 h m m.mem_all (beq_iff_eq.2 hb.symm)

theorem decodeOperands_ne_unrecognized : decodeOperands m bs ≠ .unrecognized b := by
  cases m with
  | ret | hlt => nofun
  | _ =>
    match bs with
    | [] | [_] | _ :: _ :: _ => nofun

/-- The bytes after the opcode byte play no part in its recognition (R85). -/
theorem decodeWith_cons_eq_unrecognized_iff :
    decodeWith opc (b :: rest) = .unrecognized b ↔ decodeOpcode opc b = none := by
  refine ⟨fun h => ?_, fun h => decodeWith_cons_none h rest⟩
  cases hd : decodeOpcode opc b with
  | none => rfl
  | some m => exact absurd (decodeWith_cons_some hd rest ▸ h) decodeOperands_ne_unrecognized

/-- The first byte of a decoded instruction is the one that decodes to its mnemonic. -/
theorem decodeOpcode_of_decodeWith_ok (h : decodeWith opc (b :: bs) = .ok i rest) :
    decodeOpcode opc b = some i.mnemonic := by
  obtain ⟨_, hd, hbs⟩ := decodeWith_ok h
  cases hbs
  exact hd

end Sys2Proof

/-! ## The obligations of 30_encoding.md -/

namespace Sys2Proof.Proofs

open Sys2Proof.Machine

/-- Settles O5: the opcode byte selects the mnemonic, and the operand bytes are taken back in their order. -/
theorem decodeOfEncodeIsTheInstruction : Obligations.DecodeOfEncodeIsTheInstruction :=
  fun _ hl i rest => decodeWith_encodeWith_append hl i rest

/-- Settles O4: each answer of the opcode's recognition, and that the decoder passes it on. -/
theorem opcodeDecodingIsExact : Obligations.OpcodeDecodingIsExact := fun _ hl _ =>
  ⟨fun _ => decodeOpcode_eq_some_iff hl, decodeOpcode_eq_none_iff,
    fun _ => decodeWith_cons_eq_unrecognized_iff.trans decodeOpcode_eq_none_iff,
    fun _ _ _ h => (decodeOpcode_some (decodeOpcode_of_decodeWith_ok h)).symm⟩

/-- Settles O6: the first byte is the mnemonic's, and the operand bytes are the ones taken. -/
theorem decodedBytesAreTheEncoding : Obligations.DecodedBytesAreTheEncoding :=
  fun _ _ _ _ h => decodeWith_ok_eq_append h

/-- Settles O10: the opcode byte fixes the mnemonic, and the mnemonic the number of operand bytes. -/
theorem opcodeByteAloneDecidesTheLength : Obligations.OpcodeByteAloneDecidesTheLength := by
  refine ⟨fun opc bs i rest h => ⟨?_, ?_⟩, fun opc b bs bs' i i' rest rest' h h' => ?_⟩
  · rw [decodeWith_ok_eq_append h, encodeWith, List.length_append, List.length_cons, Nat.add_comm 1]
  · exact i.length_operandBytes ▸ operandCount_le_two i.mnemonic
  · have hm : some i.mnemonic = some i'.mnemonic :=
      (decodeOpcode_of_decodeWith_ok h).symm.trans (decodeOpcode_of_decodeWith_ok h')
    rw [i.length_operandBytes, i'.length_operandBytes, Option.some.inj hm]

/-- Settles O2: fifteen fixed words, evaluated. -/
theorem opcodeWordsDecode : Obligations.OpcodeWordsDecode := by
  unfold Obligations.OpcodeWordsDecode
  decide

/-- Settles O3: the listed bytes are the thirteen mnemonics' in another order. -/
theorem everyOtherByteIsUnrecognised : Obligations.EveryOtherByteIsUnrecognised := by
  intro b
  have hperm : List.Perm [0x01, 0x11, 0x45, 0x46, 0x47, 0x50, 0x54, 0x55, 0x56, 0x82, 0xA0, 0xA2, 0xA7]
      (Mnemonic.all.map defaultOpc) := by decide
  rw [decodeOpcode_eq_none_iff, hperm.mem_iff, List.mem_map]
  exact ⟨fun h ⟨m, _, hm⟩ => h m hm.symm, fun h m hm => h ⟨m, m.mem_all, hm.symm⟩⟩

end Sys2Proof.Proofs

/-! SUPPORT. Which errors a step can raise (60_exceptions.md R201 to R205), which step is HLT's (R112), and the
invariant of a launched state (70_reset_and_hazards.md R230). -/

namespace Sys2Proof.Machine

variable {opc : OpcodeMap} {unset : FlagsUnsetRead} {s t : State} {i : Instr} {e : FaultInfo}

/-! ### The errors of a step -/

section Check

variable {p : Prop} [Decidable p] {sub : OobCause} {n : Int}

/-- The error of a check that raises an OutOfBounds where `p` holds. -/
theorem cause_of_raised_if (h : (if p then some (.outOfBounds sub n) else none) = some e) :
    e.cause = .outOfBounds := by
  split at h <;> cases h
  rfl

/-- The error of a check that raises an OutOfBounds where `p` fails. -/
theorem cause_of_raised_unless (h : (if p then none else some (.outOfBounds sub n)) = some e) :
    e.cause = .outOfBounds := by
  split at h <;> cases h
  rfl

end Check

theorem operandError_cause {n : Nat} (h : operandError n s = some e) : e.cause = .outOfBounds :=
  cause_of_raised_unless h

theorem registerError_cause {bs : List Byte} (h : registerError bs = some e) : e.cause = .outOfBounds := by
  obtain ⟨b, -, rfl⟩ := Option.map_eq_some_iff.1 h
  rfl

theorem stackError_cause (h : stackError i s = some e) : e.cause = .outOfBounds := by
  cases i with
  | push b | pop b | ret => exact cause_of_raised_if h
  | call b =>
    obtain h | ⟨-, h⟩ := Option.or_eq_some_iff.1 h
    · exact cause_of_raised_if h
    · exact cause_of_raised_unless h
  | _ => cases h

/-- Every error an instruction finds is an OutOfBounds (R201): MUL and ADD select what the arithmetic unit has. -/
theorem firstError_cause (h : firstError i s = some e) : e.cause = .outOfBounds := by
  obtain h | ⟨-, h⟩ := Option.or_eq_some_iff.1 h
  · exact operandError_cause h
  · obtain h | ⟨-, h⟩ := Option.or_eq_some_iff.1 h
    · exact registerError_cause h
    · exact stackError_cause h

/-- The errors of a fetch (R205). -/
theorem fetchInstr_error_cause (h : fetchInstr opc s = .error e) :
    e.cause = .outOfBounds ∨ e.cause = .unrecognizedOpcode := by
  rw [fetchInstr] at h
  split at h <;> cases h
  · exact .inl rfl
  · exact .inr rfl
  · exact .inl rfl

/-- What a step that answers a next state does to the cause (R200): it records one of three, or leaves it. -/
theorem stepUnder_cause (h : stepUnder opc unset s = .next t) :
    t.cause = .outOfBounds ∨ t.cause = .unrecognizedOpcode ∨ t.cause = .hlt ∨ t.cause = s.cause := by
  obtain ⟨-, ⟨i, -, hx⟩ | ⟨e, hf, rfl⟩⟩ := stepUnder_next h
  · obtain ⟨e, he, rfl⟩ | ⟨-, rfl⟩ := exec_next (exec_of_execUnder_next hx)
    · exact .inl (firstError_cause he)
    · by_cases hi : i = .hlt
      · subst hi
        exact .inr (.inr (.inl rfl))
      · exact .inr (.inr (.inr (effect_control hi).2.1))
  · exact (fetchInstr_error_cause hf).imp_right .inl

/-! ### HLT (R112, R117) -/

theorem effect_hlt_successful (s : State) : (effect .hlt s).Successful := ⟨rfl, rfl⟩

theorem raise_not_successful (s : State) (e : FaultInfo) : ¬ (s.raise e).Successful := fun h => e.cause_ne.2 h.2

/-- Of the effects on a running state only HLT's ends the run. -/
theorem eq_hlt_of_effect_successful (hr : s.run = .running) (h : (effect i s).Successful) : i = .hlt := by
  by_contra hi
  have hhalted := h.1
  rw [(effect_control hi).1, hr] at hhalted
  cases hhalted

theorem holdsAt_encodeWith_hlt : s.HoldsAt s.pc.toNat (encodeWith opc .hlt) ↔ s.memRead s.pc.toNat = some (opc .hlt) :=
  State.holdsAt_cons.trans (and_iff_left (State.holdsAt_nil s _))

/-! ### The launched state (R66, R230) -/

/-- Storing bytes within memory keeps the invariant: its canonical form is kept, and all else is as before. -/
theorem State.Inv.storeBytes (h : s.Inv) {a : Nat} {bs : List Byte} (hfit : a + bs.length ≤ 256) :
    (s.storeBytes a bs).Inv := by
  have hwf := State.wf_storeBytes h.mem_wf a bs
  rw [(State.storeBytes_frame hfit).2]
  exact ⟨hwf, h.pc_le, h.halted_iff, h.no_info, h.info_cause⟩

theorem State.Inv.loadImage {img : List Nat} (h : s.Inv) (ht : loadImage img s = .next t) : t.Inv := by
  obtain ⟨hl, rfl⟩ := loadImage_next ht
  exact h.storeBytes (by simpa using hl)

end Sys2Proof.Machine

/-! ## The obligations of 40_cycle_dispatch.md -/

namespace Sys2Proof.Proofs

open Sys2Proof.Machine

/-- Settles O8: the fetch gives the instruction whose bytes stand from `pc` on. -/
theorem stepRunsTheInstructionEncodedAtPc : Obligations.StepRunsTheInstructionEncodedAtPc :=
  fun _ hl _ s i hr hbytes => ⟨stepUnder_of_holdsAt hl hr hbytes, execUnder_default i s⟩

/-- Settles O17: an error's cause is never HLT, no other instruction halts without an error, and HLT finds no error. -/
theorem successOnlyThroughHlt : Obligations.SuccessOnlyThroughHlt := by
  intro opc hl unset s t hr ht
  constructor
  · intro hsucc
    obtain ⟨-, ⟨e, rfl⟩ | ⟨i, hf, -, rfl⟩⟩ := stepUnder_next_effect ht
    · exact absurd hsucc (raise_not_successful s e)
    · obtain rfl := eq_hlt_of_effect_successful hr hsucc
      exact holdsAt_encodeWith_hlt.1 (holdsAt_of_fetchInstr hf)
  · intro hop
    have hstep : stepUnder opc unset s = .next (effect .hlt s) :=
      stepUnder_of_holdsAt hl hr (holdsAt_encodeWith_hlt.2 hop)
    cases hstep.symm.trans ht
    exact effect_hlt_successful s

/-- Settles O24: the causes a step records are the three others. -/
theorem unsupportedOperationIsUnreachable : Obligations.UnsupportedOperationIsUnreachable := by
  intro opc unset s t ht hc
  obtain h | h | h | h := stepUnder_cause ht
  · cases hc.symm.trans h
  · cases hc.symm.trans h
  · cases hc.symm.trans h
  · exact h.symm.trans hc

/-- Settles O51: reset meets the invariant, the image load keeps it, and so does every step. -/
theorem everyRunKeepsTheInvariant : Obligations.EveryRunKeepsTheInvariant := by
  intro opc unset sp img s t hs ht
  have hlaunched : s.Inv := (invariantHoldsAtReset sp).loadImage hs
  exact ht.keeps (stepKeepsTheInvariant opc unset) hlaunched

/-- Settles O7: what the decoder reads at `pc` is what the step executes. -/
theorem stepRunsTheDecodedInstruction : Obligations.StepRunsTheDecodedInstruction := fun s i rest hr hd =>
  (stepUnder_of_ok hr (fetchInstr_ok_iff.2 ⟨rest, hd⟩)).trans (execUnder_default i s)

/-- Settles O12: the fetch's error for a byte that is no opcode, taken by the step. -/
theorem unrecognisedOpcodeStopsTheRun : Obligations.UnrecognisedOpcodeStopsTheRun :=
  fun _ _ _ _ hr hb hm => ⟨stepUnder_of_unrecognized hr hb hm, rfl⟩

/-- Settles O18: HLT makes no check, and its effect is the normal halt. -/
theorem hltHalts : Obligations.HltHalts := fun _ => exec_of_no_error (i := .hlt) rfl

/-- Settles O23: with valid operands all the unit's checks pass but that of the selector. -/
theorem aluImplementsOnlyAddAndMul : Obligations.AluImplementsOnlyAddAndMul := by
  refine ⟨fun p q s => ⟨rfl, rfl⟩, fun c p q s hp hq hpc => ?_⟩
  rw [execAlu, withOperandBytes_of_lt (Nat.lt_succ_of_le hpc), withReg_of_lt hp, withReg_of_lt hq, aluResult_other]
  rfl

end Sys2Proof.Proofs

/-! SUPPORT. The answers of an instruction by its operand bytes (10_state.md R25, R28). -/

namespace Sys2Proof.Machine

variable {s : State} {i : Instr} {b : Byte} {bs : List Byte}

/-- Where the operand bytes exist and name registers, only a check of the stack can keep an instruction from its
effect. -/
theorem exec_of_valid_operands (hp : s.pc.toNat + i.mnemonic.operandCount ≤ 255)
    (hreg : ∀ r ∈ i.registerOperands, r.toNat < 8) (hstack : stackError i s = none) :
    exec i s = .next (effect i s) :=
  exec_of_no_error (firstError_eq_none_iff.2 ⟨.inr (Nat.lt_succ_of_le hp), hreg, hstack⟩)

theorem exec_of_first_register_bad (hi : i.registerOperands = b :: bs) (hb : 8 ≤ b.toNat)
    (hp : s.pc.toNat + i.mnemonic.operandCount ≤ 255) :
    exec i s = .next (s.stopped .outOfBounds (.outOfBounds .regIdx b.toNat)) := by
  refine Proofs.invalidRegisterIndexRaises i s b ?_ hp
  rw [hi]
  exact List.find?_cons_of_pos (decide_eq_true hb)

end Sys2Proof.Machine

/-! ## The obligations of 41_output_load.md -/

namespace Sys2Proof.Proofs

open Sys2Proof.Machine

/-- Settles O19: PRN's effect on a valid operand, and its two checks. -/
theorem prnEmitsTheRegister : Obligations.PrnEmitsTheRegister := by
  refine fun b s => ⟨fun h hp => ?_, fun hb hp => exec_of_first_register_bad rfl hb hp, fun hp => ?_⟩
  · rw [exec_of_valid_operands (i := .prn b) hp (List.forall_mem_singleton.2 h) rfl, effect, regOf_of_lt h]
    rfl
  · have hpc : s.pc.toNat = 255 := congrArg BitVec.toNat hp
    exact execChecksItsOperandAddresses _ s hpc.le (Nat.succ_le_succ hpc.ge)

/-- Settles O20: LDI's effect on a valid register operand, and its two checks; the immediate needs none. -/
theorem ldiLoadsTheImmediate : Obligations.LdiLoadsTheImmediate := by
  refine fun b imm s => ⟨fun h hp => ?_, fun hb hp => exec_of_first_register_bad rfl hb hp, fun hp => ?_⟩
  · rw [exec_of_valid_operands (i := .ldi b imm) hp (List.forall_mem_singleton.2 h) rfl, effect, regOf_of_lt h]
    rfl
  · have hpc : 254 ≤ s.pc.toNat ∧ s.pc.toNat ≤ 255 := by
      obtain hp | hp := hp <;> rw [hp] <;> decide
    exact execChecksItsOperandAddresses _ s hpc.2 (Nat.add_le_add_right hpc.1 2)

end Sys2Proof.Proofs

/-! SUPPORT. What the arithmetic unit does where both operands are valid and the selector is one it has
(42_arithmetic.md R140 to R142; 40_cycle_dispatch.md R116). -/

namespace Sys2Proof.Machine

variable {s : State} {sel : AluSelector} {p q v : Byte}

theorem execAlu_of_result (hp : p.toNat < 8) (hq : q.toNat < 8) (hpc : s.pc.toNat + 2 ≤ 255)
    (hv : aluResult sel (s.reg ⟨p.toNat, hp⟩) (s.reg ⟨q.toNat, hq⟩) = some v) :
    execAlu sel p q s = .next ((s.setReg ⟨p.toNat, hp⟩ v).advance 3) := by
  rw [execAlu, withOperandBytes_of_lt (Nat.lt_succ_of_le hpc), withReg_of_lt hp, withReg_of_lt hq, hv]

/-- The unit's result goes to the first operand's register, `pc` goes on by the three bytes, and all else is kept. -/
theorem execAlu_writes_result (hp : p.toNat < 8) (hq : q.toNat < 8) (hpc : s.pc.toNat + 2 ≤ 255)
    (hv : aluResult sel (s.reg ⟨p.toNat, hp⟩) (s.reg ⟨q.toNat, hq⟩) = some v) :
    ∃ t, execAlu sel p q s = .next t ∧ t.reg ⟨p.toNat, hp⟩ = v ∧
      (∀ j : RegIdx, j.val ≠ p.toNat → t.reg j = s.reg j) ∧ t.pc.toNat = s.pc.toNat + 3 ∧
      (∀ a, t.memRead a = s.memRead a) ∧ t.fl = s.fl ∧ t.run = s.run ∧ t.cause = s.cause ∧
      t.faultInfo = s.faultInfo ∧ t.out = s.out := by
  refine ⟨_, execAlu_of_result hp hq hpc hv, ?_, fun j hj => ?_, ?_, fun _ => rfl, rfl, rfl, rfl, rfl, rfl⟩
  · exact State.setReg_reg_self s _ v
  · exact State.setReg_reg_of_ne s (Fin.ne_of_val_ne hj) v
  · exact advance_pc_toNat (n := 3) (Nat.succ_le_succ hpc)

end Sys2Proof.Machine

/-! ## The obligations of 42_arithmetic.md -/

namespace Sys2Proof.Proofs

open Sys2Proof.Machine

/-- Settles O21: the unit's product on bytes is the product of their values reduced modulo 256. -/
theorem mulMultiplies : Obligations.MulMultiplies := by
  intro p q s hp hq hpc
  obtain ⟨t, ht, hreg, hframe⟩ := execAlu_writes_result hp hq hpc (aluResult_mul _ _)
  exact ⟨t, ht, by rw [hreg, BitVec.toNat_mul], hframe⟩

/-- Settles O22: the unit's sum on bytes is the sum of their values reduced modulo 256. -/
theorem addAdds : Obligations.AddAdds := by
  intro p q s hp hq hpc
  obtain ⟨t, ht, hreg, hframe⟩ := execAlu_writes_result hp hq hpc (aluResult_add _ _)
  exact ⟨t, ht, by rw [hreg, BitVec.toNat_add], hframe⟩

end Sys2Proof.Proofs

/-! SUPPORT. The stack checks of PUSH and POP once their operand is valid, and the stack pointer that POP increments
(43_stack.md R150, R151). -/

namespace Sys2Proof.Machine

variable {s : State} {i : Instr} {e : FaultInfo} {b : Byte}

/-- Where the operand bytes exist and name registers, the error of the stack's checks is the first one. -/
theorem exec_of_stackError (hp : s.pc.toNat + i.mnemonic.operandCount ≤ 255)
    (hreg : ∀ r ∈ i.registerOperands, r.toNat < 8) (hstack : stackError i s = some e) :
    exec i s = .next (s.raise e) := by
  have hfind : i.registerOperands.find? (fun r => decide (8 ≤ r.toNat)) = none :=
    List.find?_eq_none.2 fun r hr => by simpa using hreg r hr
  refine exec_of_error ?_
  rw [firstError, operandError, if_pos (.inr (Nat.lt_succ_of_le hp)), registerError, hfind, hstack]
  rfl

theorem sp_eq_regOf_iff (h : b.toNat < 8) : 7 = regOf b ↔ b = 7 := by
  rw [eq_regOf_iff h, ← BitVec.toNat_inj]
  exact eq_comm

/-- The stack pointer after the register write of POP: the popped byte in POP R7 (D29). -/
theorem State.sp_setReg_regOf (h : b.toNat < 8) (v : Byte) :
    (s.setReg (regOf b) v).sp = if b = 7 then v else s.reg 7 := by
  simp only [State.sp, State.setReg_reg, sp_eq_regOf_iff h]

/-- The bytes of an instruction with one operand byte (R56), cell by cell. -/
theorem State.holdsAt_pair {a : Nat} {x y : Byte} (hx : s.memRead a = some x) (hy : s.memRead (a + 1) = some y) :
    s.HoldsAt a [x, y] :=
  State.holdsAt_cons.2 ⟨hx, State.holdsAt_cons.2 ⟨hy, State.holdsAt_nil s _⟩⟩

end Sys2Proof.Machine

/-! ## The obligations of 43_stack.md -/

namespace Sys2Proof.Proofs

open Sys2Proof.Machine

/-- Settles O25: PUSH's effect on a valid operand, and its check of the stack pointer. -/
theorem pushStoresBelowTheStackPointer : Obligations.PushStoresBelowTheStackPointer := by
  intro b s h hp
  have hreg : ∀ r ∈ (Instr.push b).registerOperands, r.toNat < 8 := List.forall_mem_singleton.2 h
  refine ⟨fun hsp => ⟨effect (.push b) s, exec_of_valid_operands hp hreg (if_neg hsp), ?_, fun j hj => ?_, ?_,
    fun a ha => ?_, ?_, rfl, rfl, rfl, rfl, rfl⟩, fun hsp => exec_of_stackError hp hreg (if_pos hsp)⟩
  · exact State.setReg_reg_self s 7 _
  · exact State.setReg_reg_of_ne s hj _
  · rw [← State.reg_regOf_setSp h]
    exact (memRead_storeByte_under_sp hsp _ _).trans (if_pos rfl)
  · exact (memRead_storeByte_under_sp hsp _ _).trans (if_neg ha)
  · exact advance_pc_toNat (n := 2) (Nat.succ_le_succ hp)

/-- Settles O26: POP's effect on a valid operand, and its check of the stack pointer that its register write left. -/
theorem popLoadsFromTheStackPointer : Obligations.PopLoadsFromTheStackPointer := by
  intro b s h v t7 hp hv ht7
  have hreg : ∀ r ∈ (Instr.pop b).registerOperands, r.toNat < 8 := List.forall_mem_singleton.2 h
  have hload : s.loadByte s.sp = v := Option.some.inj ((s.memRead_byte s.sp).symm.trans hv)
  have hsp : (s.setReg (regOf b) (s.loadByte s.sp)).sp = t7 := by rw [hload, State.sp_setReg_regOf h, ht7]
  refine ⟨fun hne => ?_, fun heq => exec_of_stackError hp hreg (if_pos (hsp.trans heq))⟩
  have hx : exec (.pop b) s = .next (effect (.pop b) s) :=
    exec_of_valid_operands hp hreg (if_neg fun h0 => hne (hsp.symm.trans h0))
  have heff : effect (.pop b) s = ((s.setReg (regOf b) v).setSp (t7 + 1)).advance 2 := by rw [effect, hsp, hload]
  rw [heff] at hx
  refine ⟨_, hx, ?_, fun hb => ?_, fun j h7 hj => ?_, fun _ => rfl, ?_, rfl, rfl, rfl, rfl, rfl⟩
  · exact State.setReg_reg_self _ 7 _
  · have h7 : regOf b ≠ 7 := fun h7 => hb ((sp_eq_regOf_iff h).1 h7.symm)
    rw [← regOf_of_lt h, State.advance_reg, State.setReg_reg_of_ne _ h7, State.setReg_reg_self]
  · rw [State.advance_reg, State.setReg_reg_of_ne _ h7, State.setReg_reg_of_ne _ (mt (eq_regOf_iff h).1 hj)]
  · exact advance_pc_toNat (n := 2) (Nat.succ_le_succ hp)

/-- Settles O45: PUSH's effect then POP's. In POP R7 as in any other, the stack pointer that POP increments is the one
PUSH left, since PUSH R7 stores that very value. -/
theorem pushThenPopRestores : Obligations.PushThenPopRestores := by
  intro opc hl unset b s h hr hp hsp hpush hpushReg hpop hpopReg hne2 hne3
  obtain ⟨t, hx, ht7, htreg, htcell, htmem, htpc, htfl, htrun, htcause, htinfo, htout⟩ :=
    (pushStoresBelowTheStackPointer b s h (by omega)).1 hsp
  have hlow : s.reg 7 - 1 ≠ 255 := by bv_omega
  have hcell : t.memRead (t.reg 7).toNat = some (if b = 7 then s.reg 7 - 1 else s.reg ⟨b.toNat, h⟩) := by
    rw [ht7, toNat_sub_one hsp, htcell]
  have hsp' : s.reg 7 - 1 = if b = 7 then (if b = 7 then s.reg 7 - 1 else s.reg ⟨b.toNat, h⟩) else t.reg 7 := by
    rw [ht7]
    split_ifs <;> rfl
  obtain ⟨u, hy, hu7, hureg, huother, humem, hupc, hufl, hurun, hucause, huinfo, huout⟩ :=
    (popLoadsFromTheStackPointer b t h _ _ (by omega) hcell hsp').1 hlow
  have hpushed : stepUnder opc unset s = .next t :=
    (stepUnder_of_holdsAt (i := .push b) hl hr (State.holdsAt_pair hpush hpushReg)).trans hx
  have hbytes : t.HoldsAt t.pc.toNat [opc .pop, b] := by
    rw [htpc]
    exact State.holdsAt_pair ((htmem _ hne2.symm).trans hpop) ((htmem _ hne3.symm).trans hpopReg)
  have hpopped : stepUnder opc unset t = .next u :=
    (stepUnder_of_holdsAt (i := .pop b) hl (htrun.trans hr) hbytes).trans hy
  refine ⟨t, u, hpushed, hpopped, fun j => ?_, (humem _).trans htcell, fun a ha => (humem a).trans (htmem a ha),
    by omega, hufl.trans htfl, hurun.trans (htrun.trans hr), hucause.trans htcause, huinfo.trans htinfo,
    huout.trans htout⟩
  by_cases h7 : j = 7
  · rw [h7, hu7, BitVec.sub_add_cancel]
  by_cases hj : j.val = b.toNat
  · have hb : b ≠ 7 := fun hb => h7 (((eq_regOf_iff h).2 hj).trans ((sp_eq_regOf_iff h).2 hb).symm)
    rw [(Fin.ext hj : j = ⟨b.toNat, h⟩), hureg hb, if_neg hb]
  · rw [huother j h7 hj, htreg j h7]

end Sys2Proof.Proofs

/-! SUPPORT. The checks of CALL and RET once their operands are valid (44_call_return.md R160, R161). -/

namespace Sys2Proof.Machine

variable {s : State} {b : Byte}

/-- CALL checks the stack pointer first (R160), so at 0 the return address plays no part. -/
theorem stackError_call_of_sp_zero (hsp : s.sp = 0) :
    stackError (.call b) s = some (.outOfBounds .stackLow (-1)) := by
  rw [stackError, stackLowError, if_pos hsp, Option.some_or]

/-- A return address that is no address (D21). -/
theorem stackError_call_of_return_ge (hsp : s.sp ≠ 0) (hp : 256 ≤ s.pc.toNat + 2) :
    stackError (.call b) s = some (.outOfBounds .retAddr (s.pc.toNat + 2 : Nat)) := by
  rw [stackError, stackLowError, if_neg hsp, Option.none_or, returnError, if_neg (not_lt.2 hp)]

/-- RET has no operand byte (R161), so its one check is that of the stack pointer, at every `pc`. -/
theorem firstError_ret : firstError .ret s = stackHighError s := rfl

end Sys2Proof.Machine

/-! ## The obligations of 44_call_return.md -/

namespace Sys2Proof.Proofs

open Sys2Proof.Machine

/-- Settles O27: CALL's effect on a valid operand, and its two checks of the stack in their order. -/
theorem callPushesTheReturnAddress : Obligations.CallPushesTheReturnAddress := by
  intro b s h hp
  have hreg : ∀ r ∈ (Instr.call b).registerOperands, r.toNat < 8 := List.forall_mem_singleton.2 h
  refine ⟨fun hsp hret => ?_, fun hsp => exec_of_stackError hp hreg (stackError_call_of_sp_zero hsp),
    fun hsp hpc => ?_⟩
  · have hx : exec (.call b) s = .next (effect (.call b) s) :=
      exec_of_no_error (firstError_call h (Nat.lt_succ_of_le hret) hsp)
    have hra : (BitVec.ofNat 8 (s.pc.toNat + 2)).toNat = s.pc.toNat + 2 :=
      (BitVec.toNat_ofNat _ _).trans (Nat.mod_eq_of_lt (Nat.lt_succ_of_le hret))
    refine ⟨_, hx, ?_, fun j hj => ?_, ⟨_, hra, ?_⟩, fun a ha => ?_, ?_, rfl, rfl, rfl, rfl, rfl⟩
    · exact State.setReg_reg_self s 7 _
    · exact State.setReg_reg_of_ne s hj _
    · exact (memRead_storeByte_under_sp hsp _ _).trans (if_pos rfl)
    · exact (memRead_storeByte_under_sp hsp _ _).trans (if_neg ha)
    · rw [effect, jumpTo_pc_toNat, State.reg_regOf_setSp h]
  · have hpc' : s.pc.toNat = 254 := congrArg BitVec.toNat hpc
    have hx := exec_of_stackError hp hreg (stackError_call_of_return_ge hsp (Nat.add_le_add_right hpc'.ge 2))
    rw [hpc'] at hx
    exact hx

/-- Settles O28: RET's effect, and its check of the stack pointer. -/
theorem retPopsThePc : Obligations.RetPopsThePc := by
  intro s v hv
  have hload : s.loadByte s.sp = v := Option.some.inj ((s.memRead_byte s.sp).symm.trans hv)
  refine ⟨fun hsp => ?_, fun hsp => exec_of_error (firstError_ret.trans (if_pos hsp))⟩
  have hx : exec .ret s = .next (effect .ret s) := exec_of_no_error (firstError_ret.trans (if_neg hsp))
  refine ⟨_, hx, ?_, ?_, fun j hj => ?_, fun _ => rfl, rfl, rfl, rfl, rfl, rfl⟩
  · rw [effect, jumpTo_pc_toNat, hload]
  · exact State.setReg_reg_self s 7 _
  · exact State.setReg_reg_of_ne s hj _

/-- Settles O46: RET pops the byte that CALL pushed. The stack pointer that CALL left is not 255, so RET's increment
undoes CALL's decrement. -/
theorem callThenRetReturns : Obligations.CallThenRetReturns := by
  intro b s h hp hsp
  obtain ⟨t, hx, ht7, -, ⟨ra, hra, hcell⟩, -⟩ :=
    (callPushesTheReturnAddress b s h (by omega)).1 hsp (Nat.add_le_add_right hp 2)
  refine ⟨t, hx, ht7, fun u hu7 hucell => ?_⟩
  have hsp' : u.reg 7 = s.reg 7 - 1 := hu7.trans ht7
  have hpopped : u.memRead (u.reg 7).toNat = some ra := by
    rw [hsp', toNat_sub_one hsp, hucell, hcell]
  have hlow : u.reg 7 ≠ 255 := by
    rw [hsp']
    bv_omega
  obtain ⟨w, hy, hwpc, hw7, -⟩ := (retPopsThePc u ra hpopped).1 hlow
  exact ⟨w, hy, hwpc.trans hra, by rw [hw7, hsp', BitVec.sub_add_cancel]⟩

end Sys2Proof.Proofs

/-! SUPPORT. The three answers of the comparison (45_compare.md R170, D13): each is given exactly by one of the three
orders of two unsigned bytes. -/

namespace Sys2Proof.Machine

theorem compareBytes_eq_eq_iff (x y : Byte) : compareBytes x y = .eq ↔ x = y := by
  rw [compareBytes]
  split_ifs with heq hgt
  · exact iff_of_true rfl heq
  · exact iff_of_false (by decide) heq
  · exact iff_of_false (by decide) heq

theorem compareBytes_eq_gt_iff (x y : Byte) : compareBytes x y = .gt ↔ y.toNat < x.toNat := by
  rw [compareBytes]
  split_ifs with heq hgt
  · exact iff_of_false (by decide) (heq ▸ lt_irrefl _)
  · exact iff_of_true rfl hgt
  · exact iff_of_false (by decide) hgt

/-- Bytes that are neither equal nor in the order of GT are in the order of LT. -/
theorem compareBytes_eq_lt_iff (x y : Byte) : compareBytes x y = .lt ↔ x.toNat < y.toNat := by
  rw [compareBytes]
  split_ifs with heq hgt
  · exact iff_of_false (by decide) (heq ▸ lt_irrefl _)
  · exact iff_of_false (by decide) (lt_asymm hgt)
  · exact iff_of_true rfl (lt_of_le_of_ne (not_lt.1 hgt) (mt BitVec.eq_of_toNat_eq heq))

end Sys2Proof.Machine

/-! ## The obligations of 45_compare.md -/

namespace Sys2Proof.Proofs

open Sys2Proof.Machine

/-- Settles O29: CMP's effect on valid operands writes the comparison of their registers, whose three answers are the
three orders. -/
theorem cmpSetsTheFlags : Obligations.CmpSetsTheFlags := by
  intro p q s hp hq hpc
  have hreg : ∀ r ∈ (Instr.cmp p q).registerOperands, r.toNat < 8 :=
    List.forall_mem_cons.2 ⟨hp, List.forall_mem_singleton.2 hq⟩
  have hx : exec (.cmp p q) s = .next (effect (.cmp p q) s) := exec_of_valid_operands hpc hreg rfl
  rw [effect, regOf_of_lt hp, regOf_of_lt hq] at hx
  exact ⟨_, hx, compareBytes_eq_eq_iff _ _, compareBytes_eq_gt_iff _ _, compareBytes_eq_lt_iff _ _⟩

end Sys2Proof.Proofs

/-! SUPPORT. The branches with a valid operand, and the steps and the runs under the two values of FLAGS_UNSET_READ
(46_branch.md R181 to R183, D5; 40_cycle_dispatch.md R115). -/

namespace Sys2Proof.Machine

variable {opc : OpcodeMap} {unset : FlagsUnsetRead} {s t : State} {b : Byte} {n : Nat}

/-! ### The conditional branches -/

theorem exec_jeq_of_valid_operand (hb : b.toNat < 8) (hp : s.pc.toNat + 1 ≤ 255) :
    exec (.jeq b) s = .next (if s.fl = .eq then s.jumpTo (s.reg ⟨b.toNat, hb⟩) else s.advance 2) := by
  rw [exec_of_no_error (firstError_branch hb (Nat.lt_succ_of_le hp)).1, effect, regOf_of_lt hb]

theorem exec_jne_of_valid_operand (hb : b.toNat < 8) (hp : s.pc.toNat + 1 ≤ 255) :
    exec (.jne b) s = .next (if s.fl ≠ .eq then s.jumpTo (s.reg ⟨b.toNat, hb⟩) else s.advance 2) := by
  rw [exec_of_no_error (firstError_branch hb (Nat.lt_succ_of_le hp)).2, effect, regOf_of_lt hb]

/-- R30: no instruction but the conditional branches takes the parameter. -/
theorem execUnder_of_not_branch {i : Instr} (hq : i.mnemonic ≠ .jeq) (hn : i.mnemonic ≠ .jne) :
    execUnder unset i s = exec i s := by
  cases i with
  | jeq b => exact absurd rfl hq
  | jne b => exact absurd rfl hn
  | _ => rfl

/-! ### The step -/

/-- What a step can do under any value of the parameter, it does under `literal`. -/
theorem stepUnder_next_literal (h : stepUnder opc unset s = .next t) : stepUnder opc .literal s = .next t := by
  obtain ⟨hr, ⟨i, hf, hx⟩ | ⟨e, hf, rfl⟩⟩ := stepUnder_next h
  · exact (stepUnder_of_ok hr hf).trans (execUnder_next_literal hx)
  · exact stepUnder_of_error hr hf

theorem stepUnder_literal_ne_flagsUnset : stepUnder opc .literal s ≠ .fault .flagsUnset := by
  obtain hr | hr := s.run.running_or_halted
  · obtain ⟨t, ht⟩ := stepUnder_literal_next opc hr
    rw [ht]
    exact nofun
  · rw [stepUnder_of_halted hr]
    exact nofun

/-- A step that is not withheld is the step of `literal`. -/
theorem stepUnder_fault_eq_literal (h : ¬ s.BranchesUnset opc) :
    stepUnder opc .fault s = stepUnder opc .literal s := by
  obtain hr | hr := s.run.running_or_halted
  · obtain ⟨t, ht⟩ := stepUnder_fault_next hr h
    rw [ht, stepUnder_next_literal ht]
  · rw [stepUnder_of_halted hr, stepUnder_of_halted hr]

theorem State.not_branchesUnset_of_set (h : s.fl ≠ .none) : ¬ s.BranchesUnset opc := fun ⟨_, hfl, _⟩ => h hfl

/-! ### The run (R115) -/

theorem runFor_of_halted (hr : s.run = .halted) : runFor opc unset n s = .next s := by
  cases n with
  | zero => rfl
  | succ n => rw [runFor, hr]

theorem runFor_succ_of_next (h : stepUnder opc unset s = .next t) :
    runFor opc unset (n + 1) s = runFor opc unset n t := by
  rw [runFor, (stepUnder_next h).1, h]

/-- The runs take the same first step, and what the rest of them reaches, the whole run of `literal` reaches. -/
theorem runFor_fault_eq_literal (h : ∀ t, Reaches opc .literal s t → ¬ t.BranchesUnset opc) :
    runFor opc .fault n s = runFor opc .literal n s := by
  induction n generalizing s with
  | zero => rfl
  | succ n ih =>
    obtain hr | hr := s.run.running_or_halted
    · obtain ⟨u, hu⟩ := stepUnder_fault_next hr (h s .refl)
      have hu' : stepUnder opc .literal s = .next u := stepUnder_next_literal hu
      rw [runFor_succ_of_next hu, runFor_succ_of_next hu']
      exact ih fun t ht => h t (ht.head hu')
    · rw [runFor_of_halted hr, runFor_of_halted hr]

/-- The state in which a run is withheld is one it reaches. -/
theorem exists_branchesUnset_of_runFor (h : runFor opc .fault n s = .fault .flagsUnset) :
    ∃ t, Reaches opc .fault s t ∧ t.BranchesUnset opc := by
  induction n generalizing s with
  | zero => cases h
  | succ n ih =>
    obtain hr | hr := s.run.running_or_halted
    · by_cases hb : s.BranchesUnset opc
      · exact ⟨s, .refl, hb⟩
      · obtain ⟨u, hu⟩ := stepUnder_fault_next hr hb
        rw [runFor_succ_of_next hu] at h
        obtain ⟨t, ht, htb⟩ := ih h
        exact ⟨t, ht.head hu, htb⟩
    · rw [runFor_of_halted hr] at h
      cases h

end Sys2Proof.Machine

/-! ## The obligations of 46_branch.md -/

namespace Sys2Proof.Proofs

open Sys2Proof.Machine

/-- Settles O33: the branches that the parameter decides are withheld, and every other step is that of `literal`,
which never answers the fault. -/
theorem faultParameterWithholdsOnlyUnsetBranches : Obligations.FaultParameterWithholdsOnlyUnsetBranches := by
  refine fun opc s => ⟨⟨fun hx => ?_, stepUnder_of_branchesUnset⟩, stepUnder_fault_eq_literal⟩
  by_contra hb
  exact stepUnder_literal_ne_flagsUnset ((stepUnder_fault_eq_literal hb).symm.trans hx)

/-- Settles O34, by induction on the fuel; a comparison, once made, stays made, so no branch after it is withheld. -/
theorem runsAgreeOnceCompared : Obligations.RunsAgreeOnceCompared := by
  refine fun opc n s => ⟨runFor_fault_eq_literal, fun hfl => ?_, exists_branchesUnset_of_runFor⟩
  exact runFor_fault_eq_literal fun t ht =>
    State.not_branchesUnset_of_set (flagsStaySetOnceCompared opc .literal s t ht hfl)

/-- Settles O30: JMP's effect on a valid operand, and its two checks. -/
theorem jmpJumps : Obligations.JmpJumps := by
  refine fun b s => ⟨fun h hp => ?_, fun hb hp => exec_of_first_register_bad rfl hb hp, fun hp => ?_⟩
  · rw [exec_of_valid_operands (i := .jmp b) hp (List.forall_mem_singleton.2 h) rfl, effect, regOf_of_lt h]
    rfl
  · have hpc : s.pc.toNat = 255 := congrArg BitVec.toNat hp
    exact execChecksItsOperandAddresses _ s hpc.le (Nat.succ_le_succ hpc.ge)

/-- Settles O31: the two branches with a valid operand, their tests decided by `fl`. -/
theorem branchesFollowTheFlags : Obligations.BranchesFollowTheFlags := by
  intro b s h hp
  rw [exec_jeq_of_valid_operand h hp, exec_jne_of_valid_operand h hp]
  constructor
  · intro heq
    rw [if_pos heq, if_neg (not_not_intro heq)]
    exact ⟨rfl, rfl⟩
  · intro hne
    rw [if_neg hne, if_pos hne]
    exact ⟨rfl, rfl⟩

/-- Settles O32: `literal` is the default, whose branches take NONE as not EQ, and `fault` withholds a branch whose
checks pass. -/
theorem branchBeforeAnyCompare : Obligations.BranchBeforeAnyCompare := by
  refine ⟨fun b s h hp hfl => ?_, fun i s hfl => execUnder_of_set hfl _ _,
    fun _ _ _ => execUnder_of_not_branch, execUnder_default⟩
  have hne : s.fl ≠ .eq := by rw [hfl]; decide
  obtain ⟨hjeq, hjne⟩ := (branchesFollowTheFlags b s h hp).2 hne
  obtain ⟨heq, hen⟩ := firstError_branch (s := s) h (Nat.lt_succ_of_le hp)
  exact ⟨hjeq, hjne, execUnder_withheld heq hfl (.inl rfl), execUnder_withheld hen hfl (.inr rfl)⟩

end Sys2Proof.Proofs

/-! SUPPORT. The one effect that ends a run (10_state.md R32, 40_cycle_dispatch.md R117). -/

namespace Sys2Proof.Machine

variable {s : State} {i : Instr}

/-- An effect that halts a running state is the normal halt: every other one leaves `run` as it is. -/
theorem effect_cause_of_halted (hr : s.run = .running) (h : (effect i s).run = .halted) :
    (effect i s).cause = .hlt := by
  by_cases hi : i = .hlt
  · subst hi
    exact State.haltNormally_cause s
  · rw [(effect_control hi).1, hr] at h
    cases h

end Sys2Proof.Machine

/-! ## The obligations of 60_exceptions.md -/

namespace Sys2Proof.Proofs

open Sys2Proof.Machine

/-- Settles O15: the step raised an error on the state before it, or had an instruction's effect, which halts by HLT
alone. -/
theorem errorsArePrecise : Obligations.ErrorsArePrecise := by
  intro opc unset s t ht hhalted hcause
  obtain ⟨hr, ⟨e, rfl⟩ | ⟨i, -, -, rfl⟩⟩ := stepUnder_next_effect ht
  · exact ⟨e, rfl⟩
  · exact absurd (effect_cause_of_halted hr hhalted) hcause

end Sys2Proof.Proofs
